-- ==== Sys2Proof/Word.lean ====
section
/-! DEFINITION. The word types of the core: memory bytes and general registers are 8 bits, I, PC, SP and
instruction words are 16 bits (00_scope.md R7, R11: all values unsigned). -/

namespace Sys2Proof

/-- An 8-bit value: a memory byte or a general register (R20, R50). -/
abbrev Byte := BitVec 8

/-- A 16-bit value: I, PC, SP, a big-endian memory word, an instruction word (R20, R81). -/
abbrev Word := BitVec 16

/-- A 12-bit address field `nnn`: the instruction word less its 4-bit group (R81, R83). The one place where that width stands;
which of its bits make the address is `Config.addrMask`'s to say. -/
abbrev Addr12 := BitVec 12

/-- The index of a general register, 0 to 15 for V0 to VF (R21): `NUM_V` of R7, as its 4-bit field numbers them. -/
abbrev Reg := Fin 16

/-- A 4-bit count, 0 to 15: the sprite height `n` (R83). -/
abbrev Count4 := Fin 16

/-- VF, the register that also holds the carry, no-borrow and collision flag (R23). -/
abbrev regVF : Reg := 15

end Sys2Proof
end

