-- ==== Sys2Proof/Config.lean ====
section
/-! DEFINITION. The implementation parameters of 00_scope.md R7 as named constants (R8), the memory map of
20_memory.md R50 and R62, and the values the spec leaves open, which are opaque: no proof can see them. -/

namespace Sys2Proof

/-- The five zones of the address space, in their fixed order (R50). -/
inductive Zone where
  | rom | code | stack | periph | screen
deriving DecidableEq, Repr

/-- The order of the two bytes of a 16-bit peripheral register (R69, decision D4). -/
inductive WordOrder where
  | big | little
deriving DecidableEq, Repr

namespace Config

/-- `ROM_SIZE` (R7). -/
def romSize : Nat := 512
/-- `CODE_SIZE` (R7). -/
def codeSize : Nat := 3584
/-- `STACK_SIZE` (R7). -/
def stackSize : Nat := 512
/-- `PERIPH_SIZE` (R7). -/
def periphSize : Nat := 32
/-- `SCREEN_SIZE` (R7). -/
def screenSize : Nat := 2048

/-- `ROM_BASE`: each base is the sum of the sizes before it (R50). -/
def romBase : Nat := 0
/-- `CODE_BASE` = 0x0200 (R50). -/
def codeBase : Nat := romBase + romSize
/-- `STACK_BASE` = 0x1000 (R50). -/
def stackBase : Nat := codeBase + codeSize
/-- `PERIPH_BASE` = `STACK_END` = 0x1200 (R50). -/
def periphBase : Nat := stackBase + stackSize
/-- `SCREEN_BASE` = 0x1220 (R50). -/
def screenBase : Nat := periphBase + periphSize
/-- `TOTAL_SIZE` = 0x1A20: the sum of the five sizes; an address at or above it is invalid (R50, R51). -/
def totalSize : Nat := screenBase + screenSize

/-- KEYS, the keyboard mask, 16 bits at 0x1200 (R62). -/
def keysAddr : Nat := periphBase
/-- DT, the delay timer, 8 bits at 0x1202 (R62). -/
def dtAddr : Nat := periphBase + 2
/-- ST, the sound timer, 8 bits at 0x1203 (R62). -/
def stAddr : Nat := periphBase + 3
/-- SCRW, the screen width, 16 bits at 0x1204 (R62). -/
def scrwAddr : Nat := periphBase + 4
/-- SCRH, the screen height, 16 bits at 0x1206 (R62). -/
def scrhAddr : Nat := periphBase + 6
/-- SCRXS, the x-scale, 8 bits at 0x1208 (R62). -/
def scrxsAddr : Nat := periphBase + 8
/-- SCRYS, the y-scale, 8 bits at 0x1209 (R62): the last byte of the geometry registers. -/
def scrysAddr : Nat := periphBase + 9

/-- `SP_RESET` = 0x1200, the first address past STACK (R30, decision D2). -/
def spReset : Nat := periphBase
/-- `FONT_BASE` (R7). -/
def fontBase : Nat := romBase
/-- `FONT_GLYPH_SIZE` (R7). -/
def fontGlyphSize : Nat := 5
/-- `ADDR_MASK`: the bits of an instruction word that make its address field (R7, R81, R83). -/
def addrMask : Word := 0x0FFF
/-- `NUM_KEYS` (R7). -/
def numKeys : Nat := 16
/-- `I_CARRY_LIMIT` (R7, R151). -/
def iCarryLimit : Nat := 0x0FFF
/-- `SCREEN_W`: the row length `Dxyn` uses, and the value SCRW holds (R66, R102, decision D7). -/
def screenW : Nat := 64
/-- `SCREEN_H`, the value SCRH holds (R66, decision D7). -/
def screenH : Nat := 32
/-- `PERIPH_WORD_ORDER`, big by default (R69, decision D4; log 4). -/
def periphWordOrder : WordOrder := .big

/-- `FONT_ROM`: byte k of the 512-byte font blob. The source gives no contents and the spec makes it a launch
parameter (R7, R244, decision D6), so it has no body: a claim holds for every font (log 2). -/
opaque fontRom : Nat → Byte

/-- `SCREEN_XSCALE`, a launch parameter (R7, R67, decision D7; log 3). -/
opaque screenXScale : Byte

/-- `SCREEN_YSCALE`, a launch parameter (R7, R67, decision D7; log 3). -/
opaque screenYScale : Byte

/-- The n-th byte `random_byte()` gives: a free value, any byte under no law (R144, decision D17; log 1). -/
opaque randByte : Nat → Byte

end Config

/-- The first address of a zone (R50). -/
def Zone.base : Zone → Nat
  | .rom => Config.romBase
  | .code => Config.codeBase
  | .stack => Config.stackBase
  | .periph => Config.periphBase
  | .screen => Config.screenBase

/-- The size of a zone in bytes (R50). -/
def Zone.size : Zone → Nat
  | .rom => Config.romSize
  | .code => Config.codeSize
  | .stack => Config.stackSize
  | .periph => Config.periphSize
  | .screen => Config.screenSize

/-- Whether an address lies in a zone (R50). -/
def Zone.contains (z : Zone) (addr : Nat) : Bool :=
  decide (z.base ≤ addr) && decide (addr < z.base + z.size)

end Sys2Proof
end

