-- ==== Sys2Proof/Syntax.lean ====
section
/-! DEFINITION. The instructions: one constructor for each of the 34 rows of the opcode table (30_encoding.md R84),
with the operand fields of R82 and R83. Every field has the width its encoding gives it, so a field out of range
cannot be written down. The undefined words of R190-R196 have no row and no constructor here: see `Decoded`. -/

namespace Sys2Proof

/-- One constructor per row of the opcode table (R84). `x` and `y` name registers, `kk` is an unsigned byte, `nnn` a
12-bit address, `n` a count 0 to 15 (R83). -/
inductive Instr where
  /-- `00E0` CLS (R100). -/
  | cls
  /-- `00EE` RET (R111). -/
  | ret
  /-- `1nnn` JP (R110). -/
  | jp (nnn : Addr12)
  /-- `2nnn` CALL (R112). -/
  | call (nnn : Addr12)
  /-- `3xkk` SE_IMM (R114). -/
  | seImm (x : Reg) (kk : Byte)
  /-- `4xkk` SNE_IMM (R115). -/
  | sneImm (x : Reg) (kk : Byte)
  /-- `5xy0` SE_REG (R116). -/
  | seReg (x y : Reg)
  /-- `6xkk` LD_IMM (R130). -/
  | ldImm (x : Reg) (kk : Byte)
  /-- `7xkk` ADD_IMM (R131). -/
  | addImm (x : Reg) (kk : Byte)
  /-- `8xy0` LD_REG (R132). -/
  | ldReg (x y : Reg)
  /-- `8xy1` OR (R133). -/
  | orReg (x y : Reg)
  /-- `8xy2` AND (R134). -/
  | andReg (x y : Reg)
  /-- `8xy3` XOR (R135). -/
  | xorReg (x y : Reg)
  /-- `8xy4` ADD_REG (R136). -/
  | addReg (x y : Reg)
  /-- `8xy5` SUB (R137). -/
  | sub (x y : Reg)
  /-- `8xy6` SHR (R138); the y field is encoded but not read. -/
  | shr (x y : Reg)
  /-- `8xy7` SUBN (R139). -/
  | subn (x y : Reg)
  /-- `8xyE` SHL (R140); the y field is encoded but not read. -/
  | shl (x y : Reg)
  /-- `9xy0` SNE_REG (R117). -/
  | sneReg (x y : Reg)
  /-- `Annn` LD_INDEX (R150). -/
  | ldIndex (nnn : Addr12)
  /-- `Bnnn` JP_V0 (R118). -/
  | jpV0 (nnn : Addr12)
  /-- `Cxkk` RND (R141). -/
  | rnd (x : Reg) (kk : Byte)
  /-- `Dxyn` DRW (R101). -/
  | drw (x y : Reg) (n : Count4)
  /-- `Ex9E` SKP (R170). -/
  | skp (x : Reg)
  /-- `ExA1` SKNP (R171). -/
  | sknp (x : Reg)
  /-- `Fx07` LD_VX_DT (R172). -/
  | ldVxDt (x : Reg)
  /-- `Fx0A` LD_VX_K (R173). -/
  | ldVxK (x : Reg)
  /-- `Fx15` LD_DT_VX (R174). -/
  | ldDtVx (x : Reg)
  /-- `Fx18` LD_ST_VX (R175). -/
  | ldStVx (x : Reg)
  /-- `Fx1E` ADD_INDEX (R151). -/
  | addIndex (x : Reg)
  /-- `Fx29` LD_FONT (R152). -/
  | ldFont (x : Reg)
  /-- `Fx33` LD_BCD (R153). -/
  | ldBcd (x : Reg)
  /-- `Fx55` STORE_REGS (R154). -/
  | storeRegs (x : Reg)
  /-- `Fx65` LOAD_REGS (R155). -/
  | loadRegs (x : Reg)
deriving DecidableEq, Repr

end Sys2Proof
end

