-- ==== Sys2Proof/WellFormed.lean ====
section
/-! DEFINITION. What a 16-bit word stands for, and the well-formedness checks: the undefined words of each group
(45_undefined.md R190-R196) and the length of a program image (70_reset_and_hazards.md R246). An `Instr` needs no
check of its own: its fields have the widths of the encoding. -/

namespace Sys2Proof

/-- What the decoder makes of a word (R85): an instruction of the table, or, where no row matches, the no-op of the
word's group, which keeps the word it came from. -/
inductive Decoded where
  | instr (i : Instr)
  | nop (op : Word)
deriving DecidableEq, Repr

/-- The undefined words, group by group, as 45_undefined.md lists them: R191 (group 0), R192 (5), R193 (8), R194 (9),
R195 (E), R196 (F); no other group has one (R86). Written from those rules, not from the opcode table. -/
def undefinedWord (op : Word) : Bool :=
  let w := op.toNat
  let group := w / 4096
  let n := w % 16
  let kk := w % 256
  if group = 0x0 then decide (w ≠ 0x00E0 ∧ w ≠ 0x00EE)
  else if group = 0x5 then decide (1 ≤ n)
  else if group = 0x8 then decide (n ∈ [0x8, 0x9, 0xA, 0xB, 0xC, 0xD, 0xF])
  else if group = 0x9 then decide (1 ≤ n)
  else if group = 0xE then decide (kk ≠ 0x9E ∧ kk ≠ 0xA1)
  else if group = 0xF then decide (kk ∉ [0x07, 0x0A, 0x15, 0x18, 0x1E, 0x29, 0x33, 0x55, 0x65])
  else false

/-- A decoded word is well formed: an instruction always is; a no-op is when its word is undefined in its group. -/
def Decoded.wf : Decoded → Bool
  | .instr _ => true
  | .nop op => undefinedWord op

/-- The launch premise on a program image: at most `CODE_SIZE` bytes, so that it lies within CODE (R246). -/
def imageWellFormed (image : List Byte) : Bool :=
  decide (image.length ≤ Config.codeSize)

end Sys2Proof
end

