-- ==== Sys2Proof/Decode.lean ====
section
/-! DEFINITION. The decoder, total on any bytes, and after it the encoder, both from the patterns and fields of
30_encoding.md R81-R85; the opcode table of R84 as data. -/

namespace Sys2Proof

/-! ## Byte order and fields -/

/-- A big-endian word: the byte at the lower address is the high byte (R56, R70). -/
def wordOfBytes (hi lo : Byte) : Word := hi ++ lo

/-- Bits 15 to 8 (R58). -/
def hiByte (w : Word) : Byte := w.extractLsb' 8 8

/-- Bits 7 to 0 (R58). -/
def loByte (w : Word) : Byte := w.extractLsb' 0 8

/-- The group g, `op[15:12]` (R81). -/
def opGroup (op : Word) : BitVec 4 := op.extractLsb' 12 4

/-- The register index x, `op[11:8]` (R81). -/
def opX (op : Word) : Reg := (op.extractLsb' 8 4).toFin

/-- The register index y, `op[7:4]` (R81). -/
def opY (op : Word) : Reg := (op.extractLsb' 4 4).toFin

/-- The low digit n, `op[3:0]` (R81). -/
def opN (op : Word) : BitVec 4 := op.extractLsb' 0 4

/-- The immediate byte kk, `op[7:0]` (R81). -/
def opKK (op : Word) : Byte := op.extractLsb' 0 8

/-- The address nnn, `op & ADDR_MASK` (R81). -/
def opNNN (op : Word) : Addr12 := (op &&& Config.addrMask).setWidth _

/-! ## The decoder -/

/-- Group 0: `00E0` and `00EE`, two fixed words (R84); the rest is undefined (R191). -/
def decodeGroup0 (op : Word) : Decoded :=
  match op with
  | 0x00E0#16 => .instr .cls
  | 0x00EE#16 => .instr .ret
  | _ => .nop op

/-- Group 8: the function is the low digit (R84); 8-D and F are undefined (R193). -/
def decodeGroup8 (op : Word) : Decoded :=
  match opN op with
  | 0x0#4 => .instr (.ldReg (opX op) (opY op))
  | 0x1#4 => .instr (.orReg (opX op) (opY op))
  | 0x2#4 => .instr (.andReg (opX op) (opY op))
  | 0x3#4 => .instr (.xorReg (opX op) (opY op))
  | 0x4#4 => .instr (.addReg (opX op) (opY op))
  | 0x5#4 => .instr (.sub (opX op) (opY op))
  | 0x6#4 => .instr (.shr (opX op) (opY op))
  | 0x7#4 => .instr (.subn (opX op) (opY op))
  | 0xE#4 => .instr (.shl (opX op) (opY op))
  | _ => .nop op

/-- Group E: the function is kk (R84); all but 9E and A1 are undefined (R195). -/
def decodeGroupE (op : Word) : Decoded :=
  match opKK op with
  | 0x9E#8 => .instr (.skp (opX op))
  | 0xA1#8 => .instr (.sknp (opX op))
  | _ => .nop op

/-- Group F: the function is kk (R84); all but nine are undefined (R196). -/
def decodeGroupF (op : Word) : Decoded :=
  match opKK op with
  | 0x07#8 => .instr (.ldVxDt (opX op))
  | 0x0A#8 => .instr (.ldVxK (opX op))
  | 0x15#8 => .instr (.ldDtVx (opX op))
  | 0x18#8 => .instr (.ldStVx (opX op))
  | 0x1E#8 => .instr (.addIndex (opX op))
  | 0x29#8 => .instr (.ldFont (opX op))
  | 0x33#8 => .instr (.ldBcd (opX op))
  | 0x55#8 => .instr (.storeRegs (opX op))
  | 0x65#8 => .instr (.loadRegs (opX op))
  | _ => .nop op

/-- `Decode(op)`: the row of the table the word matches, else the no-op of its group; it never fails (R85, R86). The
group selects the row or rows ("decode group = high nibble", R80). -/
def decodeWord (op : Word) : Decoded :=
  match opGroup op with
  | 0x0#4 => decodeGroup0 op
  | 0x1#4 => .instr (.jp (opNNN op))
  | 0x2#4 => .instr (.call (opNNN op))
  | 0x3#4 => .instr (.seImm (opX op) (opKK op))
  | 0x4#4 => .instr (.sneImm (opX op) (opKK op))
  | 0x5#4 => if opN op = 0x0#4 then .instr (.seReg (opX op) (opY op)) else .nop op
  | 0x6#4 => .instr (.ldImm (opX op) (opKK op))
  | 0x7#4 => .instr (.addImm (opX op) (opKK op))
  | 0x8#4 => decodeGroup8 op
  | 0x9#4 => if opN op = 0x0#4 then .instr (.sneReg (opX op) (opY op)) else .nop op
  | 0xA#4 => .instr (.ldIndex (opNNN op))
  | 0xB#4 => .instr (.jpV0 (opNNN op))
  | 0xC#4 => .instr (.rnd (opX op) (opKK op))
  | 0xD#4 => .instr (.drw (opX op) (opY op) (opN op).toFin)
  | 0xE#4 => decodeGroupE op
  | 0xF#4 => decodeGroupF op
  | _ => .nop op

/-- Why a list of bytes gives no instruction. -/
inductive DecodeError where
  /-- Fewer than two bytes: every instruction is exactly two (R87). No two-byte word is rejected (R86). -/
  | truncated
deriving DecidableEq, Repr

/-- Decode the first instruction of a byte stream, high byte first, and give the bytes after it (R81, R87, R92). -/
def decode : List Byte → Except DecodeError (Decoded × List Byte)
  | hi :: lo :: rest => .ok (decodeWord (wordOfBytes hi lo), rest)
  | _ => .error .truncated

/-- The instruction the decoder reads from a table word of `nbits` bits, its bits above `nbits` zero; none where the word
is undefined. -/
def decodeTableWord (nbits w : Nat) : Option Instr :=
  let op : Word := BitVec.ofNat 16 (w % 2 ^ nbits)
  match decode [hiByte op, loByte op] with
  | .ok (.instr i, _) => some i
  | _ => none

/-! ## The encoder -/

/-- A register index or a count as its 4-bit field (R81). -/
def regField (x : Reg) : BitVec 4 := BitVec.ofFin x

/-- Format ADDR: group and 12-bit address (R82). -/
def packAddr (g : BitVec 4) (nnn : Addr12) : Word := g ++ nnn

/-- Formats REG_IMM and REG_FN: group, x, byte (R82). -/
def packRegByte (g : BitVec 4) (x : Reg) (kk : Byte) : Word := g ++ regField x ++ kk

/-- Formats REG_REG and DRAW: group, x, y, low digit (R82). -/
def packRegReg (g : BitVec 4) (x y : Reg) (n : BitVec 4) : Word := g ++ regField x ++ regField y ++ n

/-- The word of an instruction (R82, R84). -/
def encode : Instr → Word
  | .cls => 0x00E0
  | .ret => 0x00EE
  | .jp nnn => packAddr 0x1 nnn
  | .call nnn => packAddr 0x2 nnn
  | .seImm x kk => packRegByte 0x3 x kk
  | .sneImm x kk => packRegByte 0x4 x kk
  | .seReg x y => packRegReg 0x5 x y 0x0
  | .ldImm x kk => packRegByte 0x6 x kk
  | .addImm x kk => packRegByte 0x7 x kk
  | .ldReg x y => packRegReg 0x8 x y 0x0
  | .orReg x y => packRegReg 0x8 x y 0x1
  | .andReg x y => packRegReg 0x8 x y 0x2
  | .xorReg x y => packRegReg 0x8 x y 0x3
  | .addReg x y => packRegReg 0x8 x y 0x4
  | .sub x y => packRegReg 0x8 x y 0x5
  | .shr x y => packRegReg 0x8 x y 0x6
  | .subn x y => packRegReg 0x8 x y 0x7
  | .shl x y => packRegReg 0x8 x y 0xE
  | .sneReg x y => packRegReg 0x9 x y 0x0
  | .ldIndex nnn => packAddr 0xA nnn
  | .jpV0 nnn => packAddr 0xB nnn
  | .rnd x kk => packRegByte 0xC x kk
  | .drw x y n => packRegReg 0xD x y (regField n)
  | .skp x => packRegByte 0xE x 0x9E
  | .sknp x => packRegByte 0xE x 0xA1
  | .ldVxDt x => packRegByte 0xF x 0x07
  | .ldVxK x => packRegByte 0xF x 0x0A
  | .ldDtVx x => packRegByte 0xF x 0x15
  | .ldStVx x => packRegByte 0xF x 0x18
  | .addIndex x => packRegByte 0xF x 0x1E
  | .ldFont x => packRegByte 0xF x 0x29
  | .ldBcd x => packRegByte 0xF x 0x33
  | .storeRegs x => packRegByte 0xF x 0x55
  | .loadRegs x => packRegByte 0xF x 0x65

/-- The word of anything the decoder answers: an undefined word is its own encoding (R190). -/
def encodeDecoded : Decoded → Word
  | .instr i => encode i
  | .nop op => op

/-- The two bytes of an instruction as memory holds them, high byte first (R81, R92). -/
def encodeBytes (i : Instr) : List Byte := [hiByte (encode i), loByte (encode i)]

/-! ## The opcode table as data -/

/-- A row of the opcode table: a word `op` is this row's when `op &&& mask = pat` (R84). -/
structure OpcodeRow where
  mnemonic : String
  pat : Word
  mask : Word
deriving DecidableEq, Repr

/-- Whether a word is a row's (R84). -/
def OpcodeRow.accepts (row : OpcodeRow) (op : Word) : Bool := op &&& row.mask == row.pat

/-- The 34 rows of R84, in the table's order. -/
def opcodeTable : List OpcodeRow :=
  [⟨"CLS", 0x00E0, 0xFFFF⟩, ⟨"RET", 0x00EE, 0xFFFF⟩, ⟨"JP", 0x1000, 0xF000⟩, ⟨"CALL", 0x2000, 0xF000⟩,
   ⟨"SE_IMM", 0x3000, 0xF000⟩, ⟨"SNE_IMM", 0x4000, 0xF000⟩, ⟨"SE_REG", 0x5000, 0xF00F⟩] ++
  [⟨"LD_IMM", 0x6000, 0xF000⟩, ⟨"ADD_IMM", 0x7000, 0xF000⟩, ⟨"LD_REG", 0x8000, 0xF00F⟩, ⟨"OR", 0x8001, 0xF00F⟩,
   ⟨"AND", 0x8002, 0xF00F⟩, ⟨"XOR", 0x8003, 0xF00F⟩, ⟨"ADD_REG", 0x8004, 0xF00F⟩, ⟨"SUB", 0x8005, 0xF00F⟩,
   ⟨"SHR", 0x8006, 0xF00F⟩, ⟨"SUBN", 0x8007, 0xF00F⟩, ⟨"SHL", 0x800E, 0xF00F⟩] ++
  [⟨"SNE_REG", 0x9000, 0xF00F⟩, ⟨"LD_INDEX", 0xA000, 0xF000⟩, ⟨"JP_V0", 0xB000, 0xF000⟩, ⟨"RND", 0xC000, 0xF000⟩,
   ⟨"DRW", 0xD000, 0xF000⟩, ⟨"SKP", 0xE09E, 0xF0FF⟩, ⟨"SKNP", 0xE0A1, 0xF0FF⟩] ++
  [⟨"LD_VX_DT", 0xF007, 0xF0FF⟩, ⟨"LD_VX_K", 0xF00A, 0xF0FF⟩, ⟨"LD_DT_VX", 0xF015, 0xF0FF⟩,
   ⟨"LD_ST_VX", 0xF018, 0xF0FF⟩, ⟨"ADD_INDEX", 0xF01E, 0xF0FF⟩, ⟨"LD_FONT", 0xF029, 0xF0FF⟩,
   ⟨"LD_BCD", 0xF033, 0xF0FF⟩, ⟨"STORE_REGS", 0xF055, 0xF0FF⟩, ⟨"LOAD_REGS", 0xF065, 0xF0FF⟩]

/-- The table's name of an instruction (R84). -/
def mnemonicOf : Instr → String
  | .cls => "CLS" | .ret => "RET" | .jp _ => "JP" | .call _ => "CALL"
  | .seImm _ _ => "SE_IMM" | .sneImm _ _ => "SNE_IMM" | .seReg _ _ => "SE_REG"
  | .ldImm _ _ => "LD_IMM" | .addImm _ _ => "ADD_IMM" | .ldReg _ _ => "LD_REG"
  | .orReg _ _ => "OR" | .andReg _ _ => "AND" | .xorReg _ _ => "XOR" | .addReg _ _ => "ADD_REG"
  | .sub _ _ => "SUB" | .shr _ _ => "SHR" | .subn _ _ => "SUBN" | .shl _ _ => "SHL"
  | .sneReg _ _ => "SNE_REG" | .ldIndex _ => "LD_INDEX" | .jpV0 _ => "JP_V0" | .rnd _ _ => "RND"
  | .drw _ _ _ => "DRW" | .skp _ => "SKP" | .sknp _ => "SKNP"
  | .ldVxDt _ => "LD_VX_DT" | .ldVxK _ => "LD_VX_K" | .ldDtVx _ => "LD_DT_VX" | .ldStVx _ => "LD_ST_VX"
  | .addIndex _ => "ADD_INDEX" | .ldFont _ => "LD_FONT" | .ldBcd _ => "LD_BCD"
  | .storeRegs _ => "STORE_REGS" | .loadRegs _ => "LOAD_REGS"

end Sys2Proof
end

