-- ==== Sys2Proof/Machine/State.lean ====
section
/-! DEFINITION. The state of the core (10_state.md R20), the ways a step can stop, and the state right after reset. -/

namespace Sys2Proof.Machine

/-- The kinds of fault of 60_exceptions.md R201. -/
inductive FaultCode where
  /-- A byte access at an address at or above `TOTAL_SIZE` (R202). -/
  | outOfBounds
  /-- A program write to ROM (R203). -/
  | readOnlyViolation
  /-- A `Dxyn` pixel index of 2048 or more (R204). -/
  | drawOutOfFramebuffer
  /-- `Ex9E` or `ExA1` with a key number of 16 or more (R205). -/
  | keyIndexOutOfRange
  /-- A program write to the screen-geometry registers (R206). -/
  | geometryWrite
  /-- The ROM file is unreadable or truncated at load time (R207). -/
  | malformedInput
deriving DecidableEq, Repr

/-- The fault record of R200: the kind (its number and name are `FaultCode.number` and `FaultCode.name`), the faulting
address or value, and pc0, the address of the instruction whose step faulted. `malformedInput` has neither, since no step
ran (R207; log 5). -/
structure FaultRecord where
  code : FaultCode
  info : Option Nat
  pc : Option Word
deriving DecidableEq, Repr

/-- The memory array of R50, as the list of the bytes that differ from the construction contents, addresses strictly
rising: `Memory.wf` is the canonical form and `Memory.lookup` the byte at an address. -/
abbrev Memory := List Host.Cell

/-- The state: exactly what R20 lists, and the counter of the random draws, which is the model's own (log 1). -/
structure State where
  /-- V0 to VF (R21). -/
  v : Vector Byte 16
  /-- I (R27). -/
  i : Word
  /-- PC (R24). -/
  pc : Word
  /-- SP (R29). -/
  sp : Word
  /-- ROM, CODE, STACK, PERIPH and SCREEN (R50). -/
  mem : Memory
  /-- The fault record, none until a fault (R200, R240). -/
  fault : Option FaultRecord
  /-- How many random bytes were drawn (log 1: DESIGN CHOICE, the model's own field). -/
  draws : Nat
deriving DecidableEq, Repr

/-- Why the machine stops. Each carries `left`, the state the step left: effects made before the fault stand (R200, R209),
and only the host's reset uses it (R248). -/
inductive Fault where
  /-- `OutOfBounds(addr)`: raised by the fetch, RET, DRW, LD_BCD, STORE_REGS, LOAD_REGS, and by CALL from stack pointers no
  run reaches (R202). The hardware's own fault: safe. -/
  | outOfBounds (addr : Nat) (left : State)
  /-- `ReadOnlyViolation(addr)`: raised by CALL, LD_BCD, STORE_REGS (R203). The hardware's own fault: safe. -/
  | readOnlyViolation (addr : Nat) (left : State)
  /-- `DrawOutOfFramebuffer(index)`: raised by DRW (R204). The spec's model fault, where the source is undefined: safe. -/
  | drawOutOfFramebuffer (index : Nat) (left : State)
  /-- `KeyIndexOutOfRange(key)`: raised by SKP and SKNP (R205). The spec's model fault, where the source is silent: safe. -/
  | keyIndexOutOfRange (key : Nat) (left : State)
  /-- `GeometryWrite(addr)`: raised by CALL, LD_BCD, STORE_REGS (R206). The spec's model fault: safe. -/
  | geometryWrite (addr : Nat) (left : State)
  /-- `MalformedInput`: raised by `boot` for an image that could not be read (R207); no instruction raises it: safe. -/
  | malformedInput (left : State)
  /-- The host's `loadBlock` with `addr + size` past the total size (R60); nothing is written, no instruction raises it:
  safe. -/
  | loadOutOfBounds (left : State)
  /-- A step asked of a machine that holds a fault record: "no further step is taken" (R200; log 6): safe. -/
  | runEnded (left : State)
deriving DecidableEq, Repr

/-- Why a request has no meaning in the model. -/
inductive Refusal where
  /-- An instruction with no meaning yet: exec's arms alone would answer it, and none does: safe. -/
  | notModelled (mnemonic : String)
  /-- `boot` given a program image longer than `CODE_SIZE`: "a model refuses it" (R246): safe. -/
  | imageTooLong (length : Nat)
deriving DecidableEq, Repr

/-- The outcome of a step, an instruction or a host action that can fail. -/
abbrev Result := Host.Outcome State Fault Refusal

/-- The machine right after reset (R240), booted with no program: registers as R240 sets them, memory as construction and
the font load leave it (R243, R244; log 8). -/
def State.reset : State where
  v := Vector.replicate 16 0
  i := BitVec.ofNat 16 Config.romBase
  pc := BitVec.ofNat 16 Config.codeBase
  sp := BitVec.ofNat 16 Config.spReset
  mem := []
  fault := none
  draws := 0

end Sys2Proof.Machine
end

