-- ==== Sys2Proof/Machine/Memory.lean ====
section
/-! DEFINITION. The memory array (20_memory.md R50): what an unlisted address reads as, reading and writing one byte, and the
canonical form. Nothing here checks an address: the memory unit's checks are in Ops.lean. -/

namespace Sys2Proof.Machine

/-- The byte of a 16-bit peripheral register at the register's own address (R69). -/
def periphFirstByte (w : Word) : Byte :=
  match Config.periphWordOrder with
  | .big => hiByte w
  | .little => loByte w

/-- The byte of a 16-bit peripheral register at the address after it (R69). -/
def periphSecondByte (w : Word) : Byte :=
  match Config.periphWordOrder with
  | .big => loByte w
  | .little => hiByte w

/-- What an address that the memory does not list reads as: the contents after construction and font load. ROM holds
`FONT_ROM` (R244), the geometry registers their values (R243), every other byte 0x00 (R243). -/
def Memory.initByte (a : Nat) : Byte :=
  if a < Config.codeBase then Config.fontRom a
  else if a = Config.scrwAddr then periphFirstByte (BitVec.ofNat 16 Config.screenW)
  else if a = Config.scrwAddr + 1 then periphSecondByte (BitVec.ofNat 16 Config.screenW)
  else if a = Config.scrhAddr then periphFirstByte (BitVec.ofNat 16 Config.screenH)
  else if a = Config.scrhAddr + 1 then periphSecondByte (BitVec.ofNat 16 Config.screenH)
  else if a = Config.scrxsAddr then Config.screenXScale
  else if a = Config.scrysAddr then Config.screenYScale
  else 0x00

/-- The byte at an address. -/
def Memory.lookup : Memory → Nat → Byte
  | [], a => Memory.initByte a
  | (b, w) :: m, a => if a = b then w else Memory.lookup m a

/-- The memory with nothing listed at an address. -/
def Memory.erase (m : Memory) (a : Nat) : Memory := m.filter fun c => c.1 != a

/-- List a byte at an address that is not listed, in its place by address. -/
def Memory.insert : Memory → Nat → Byte → Memory
  | [], a, v => [(a, v)]
  | c :: m, a, v => if a < c.1 then (a, v) :: c :: m else c :: Memory.insert m a v

/-- Store a byte at an address, keeping the canonical form: the byte an unlisted address reads as is not listed. -/
def Memory.put (m : Memory) (a : Nat) (v : Byte) : Memory :=
  if v = Memory.initByte a then m.erase a else (m.erase a).insert a v

/-- Store consecutive bytes from an address up. -/
def Memory.putBytes : Memory → Nat → List Byte → Memory
  | m, _, [] => m
  | m, a, v :: vs => Memory.putBytes (Memory.put m a v) (a + 1) vs

/-- Set every byte of SCREEN to 0x00: an unlisted SCREEN byte reads as 0x00, so none stays listed (R100, R240). -/
def Memory.clearScreen (m : Memory) : Memory :=
  m.filter fun c => !Zone.screen.contains c.1

/-- The canonical form: addresses strictly rising, every one inside memory, and no entry that an unlisted address would
read as. -/
abbrev Memory.wf (m : Memory) : Prop :=
  m.Pairwise (fun c d => c.1 < d.1) ∧ ∀ c ∈ m, c.1 < Config.totalSize ∧ c.2 ≠ Memory.initByte c.1

end Sys2Proof.Machine
end

