-- ==== Sys2Proof/Machine/Ops.lean ====
section
/-! DEFINITION. The shared operations: registers, raising a fault (60_exceptions.md R200), the memory unit's byte and word
accessors with their checks (20_memory.md R55-R59), and the fetch (30_encoding.md R80). An accessor takes the address `pc0` of
the instruction that makes the access, for the fault record, and a continuation for what the instruction does next: after a
fault nothing of it runs (00_scope.md R13). -/

namespace Sys2Proof.Machine

/-! ## Registers -/

/-- `V[r]` (R12). -/
def State.getV (s : State) (r : Reg) : Byte := s.v[r]

/-- `V[r] <- b` (R12). -/
def State.setV (s : State) (r : Reg) (b : Byte) : State := { s with v := s.v.set r b }

/-- pc0, the address of the instruction that executes: PC holds it plus 2 (R24, R80). -/
def State.instrAddr (s : State) : Word := s.pc - 2

/-! ## Memory bytes -/

/-- The byte at an address, with no check. -/
def State.byteAt (s : State) (a : Nat) : Byte := s.mem.lookup a

/-- Store a byte with no check. -/
def State.setByte (s : State) (a : Nat) (v : Byte) : State := { s with mem := s.mem.put a v }

/-- `SCREEN[j]` (R12, R78). -/
def State.pixel (s : State) (j : Nat) : Byte := s.byteAt (Config.screenBase + j)

/-- `SCREEN[j] <- v`: a framebuffer write, not a program write, so no check of R57 applies (R61). -/
def State.setPixel (s : State) (j : Nat) (v : Byte) : State := s.setByte (Config.screenBase + j) v

/-- Whether an address is one of the screen-geometry registers, 0x1204 to 0x1209 (R59). -/
def isGeometry (a : Nat) : Bool := decide (Config.scrwAddr ≤ a) && decide (a ≤ Config.scrysAddr)

/-! ## Raising a fault -/

/-- The number of a fault (R201). -/
def FaultCode.number : FaultCode → Nat
  | .outOfBounds => 1
  | .readOnlyViolation => 2
  | .drawOutOfFramebuffer => 3
  | .keyIndexOutOfRange => 4
  | .geometryWrite => 5
  | .malformedInput => 6

/-- The name of a fault (R201). -/
def FaultCode.name : FaultCode → String
  | .outOfBounds => "OutOfBounds"
  | .readOnlyViolation => "ReadOnlyViolation"
  | .drawOutOfFramebuffer => "DrawOutOfFramebuffer"
  | .keyIndexOutOfRange => "KeyIndexOutOfRange"
  | .geometryWrite => "GeometryWrite"
  | .malformedInput => "MalformedInput"

/-- The state a fault leaves: everything as it stands, and the fault record written (R200). There is no vector, no saved
state and no mode change (R211). -/
def State.recordFault (s : State) (code : FaultCode) (info : Nat) (pc0 : Word) : State :=
  { s with fault := some { code := code, info := some info, pc := some pc0 } }

/-- `raise F(info)`: the step and the run end (R13, R200). -/
def raise (code : FaultCode) (info : Nat) (pc0 : Word) (s : State) : Result :=
  let left := s.recordFault code info pc0
  match code with
  | .outOfBounds => .fault (.outOfBounds info left)
  | .readOnlyViolation => .fault (.readOnlyViolation info left)
  | .drawOutOfFramebuffer => .fault (.drawOutOfFramebuffer info left)
  | .keyIndexOutOfRange => .fault (.keyIndexOutOfRange info left)
  | .geometryWrite => .fault (.geometryWrite info left)
  | .malformedInput => .fault (.malformedInput left)

/-! ## The memory unit -/

/-- `MemRead(addr, 1)` (R55): no side effect. -/
def readByte (pc0 : Word) (addr : Nat) (s : State) (k : Byte → Result) : Result :=
  if addr < Config.totalSize then k (s.byteAt addr) else raise .outOfBounds addr pc0 s

/-- `MemRead(addr, 2)`: two byte reads, big-endian, the byte at `addr` first (R56). -/
def readWord (pc0 : Word) (addr : Nat) (s : State) (k : Word → Result) : Result :=
  readByte pc0 addr s fun hi => readByte pc0 (addr + 1) s fun lo => k (wordOfBytes hi lo)

/-- `MemWrite(addr, 1, v)` by a program instruction: OutOfBounds, then ReadOnlyViolation, then GeometryWrite, else the byte is
stored (R57, R59, R209). -/
def writeByte (pc0 : Word) (addr : Nat) (v : Byte) (s : State) (k : State → Result) : Result :=
  if addr < Config.totalSize then
    if addr < Config.codeBase then raise .readOnlyViolation addr pc0 s
    else if isGeometry addr then raise .geometryWrite addr pc0 s
    else k (s.setByte addr v)
  else raise .outOfBounds addr pc0 s

/-- `MemWrite(addr, 2, v)`: the high byte at `addr`, then the low byte at `addr + 1`, each checked; a fault of the second
leaves the first written (R58). -/
def writeWord (pc0 : Word) (addr : Nat) (v : Word) (s : State) (k : State → Result) : Result :=
  writeByte pc0 addr (hiByte v) s fun s => writeByte pc0 (addr + 1) (loByte v) s k

/-! ## Fetch -/

/-- The fetch: the word at PC, at any address and alignment; a fault leaves PC unchanged and records it (R80, R200). -/
def fetchWord (s : State) (k : Word → Result) : Result := readWord s.pc s.pc.toNat s k

/-- PC after the fetch (R80). -/
def State.advance (s : State) : State := { s with pc := s.pc + 2 }

/-- Place a word, high byte first, as a loader would: no check (R60). -/
def State.pokeWord (s : State) (a : Nat) (op : Word) : State := (s.setByte a (hiByte op)).setByte (a + 1) (loByte op)

end Sys2Proof.Machine
end

