-- ==== Sys2Proof/Machine/Flags.lean ====
section
/-! DEFINITION. Every flag computation of the instruction set. A flag is the byte 0 or 1 written to VF (10_state.md R23);
sums are compared on unbounded integers (00_scope.md R11). -/

namespace Sys2Proof.Machine

/-- `b2u(c)` as the byte a flag write stores (R11). -/
def b2u (c : Bool) : Byte := if c then 1 else 0

/-- Carry out of 8 bits: the sum exceeds 255 (R136). -/
def carryFlag (a b : Byte) : Bool := decide (a.toNat + b.toNat > 255)

/-- No borrow, strict: `a > b`, so equal operands give false (R137, R139). -/
def noBorrowFlag (a b : Byte) : Bool := decide (a.toNat > b.toNat)

/-- The bit a right shift by one shifts out (R138). -/
def shrFlag (a : Byte) : Bool := decide (a &&& 1 ≠ 0)

/-- The bit a left shift by one shifts out (R140). -/
def shlFlag (a : Byte) : Bool := decide (a &&& 0x80 ≠ 0)

/-- I passed 0x0FFF: the unbounded sum exceeds `I_CARRY_LIMIT` (R151, decision D13). -/
def indexFlag (i : Word) (a : Byte) : Bool := decide (i.toNat + a.toNat > Config.iCarryLimit)

end Sys2Proof.Machine
end

