-- ==== Sys2Proof/Machine/Operands.lean ====
section
/-! DEFINITION. The operand forms: address and index fields, the fixed peripheral registers, the key tests, pixel positions,
decimal digits and register blocks (30_encoding.md R83, 43_index_memory.md R156). -/

namespace Sys2Proof.Machine

/-- `zext_16(nnn)` (R83). -/
def zextAddr (nnn : Addr12) : Word := nnn.setWidth 16

/-- `zext_16(V[x])` (R11). -/
def zextByte (b : Byte) : Word := b.setWidth 16

/-- The skip of R113: PC advances by 2 more; the skipped word is not read. -/
def State.skipIf (s : State) (c : Bool) : State := if c then { s with pc := s.pc + 2 } else s

/-! ## Peripheral registers -/

/-- The value of a 16-bit peripheral register, given the word `MemRead(addr, 2)` reads (R69). -/
def periphValue (w : Word) : Word :=
  match Config.periphWordOrder with
  | .big => w
  | .little => wordOfBytes (loByte w) (hiByte w)

/-- The word whose big-endian storing puts a 16-bit peripheral register's bytes in place (R69). -/
def periphImage (w : Word) : Word := wordOfBytes (periphFirstByte w) (periphSecondByte w)

/-- Read KEYS, the 16-bit keyboard mask (R63, R69). -/
def readKeys (pc0 : Word) (s : State) (k : Word → Result) : Result :=
  readWord pc0 Config.keysAddr s fun w => k (periphValue w)

/-- `KeyDown(key)`: bit `key` of KEYS; a key number of 16 or more names no bit and faults (R176, decision D11). -/
def keyDown (pc0 : Word) (key : Byte) (s : State) (k : Bool → Result) : Result :=
  if key.toNat < Config.numKeys then readKeys pc0 s fun m => k (m.getLsbD key.toNat)
  else raise .keyIndexOutOfRange key.toNat pc0 s

/-- The lowest key number whose bit is set (R173); a mask of zero has none and the caller has excluded it. -/
def lowestKey (m : Word) : Nat := ((List.range Config.numKeys).find? fun k => m.getLsbD k).getD 0

/-! ## Sprites -/

/-- `PixelIndex(px, py)` on unbounded integers (R102). -/
def pixelIndex (px py : Nat) : Nat := py * Config.screenW + px

/-- Bit c of a sprite byte, c = 0 the most significant (R101). -/
def spriteBit (b : Byte) (c : Nat) : Bool := b.getLsbD (7 - c)

/-- `SCREEN[j] ^ bit`: only bit 0 of the pixel byte can change (R101). -/
def xorPixel (p : Byte) (bit : Bool) : Byte := p ^^^ (if bit then 1 else 0)

/-! ## Decimal digits -/

/-- `v div 100` (R153). -/
def hundreds (v : Byte) : Byte := BitVec.ofNat 8 (v.toNat / 100)

/-- `(v div 10) mod 10` (R153). -/
def tens (v : Byte) : Byte := BitVec.ofNat 8 (v.toNat / 10 % 10)

/-- `v mod 10` (R153). -/
def ones (v : Byte) : Byte := BitVec.ofNat 8 (v.toNat % 10)

/-! ## Register blocks -/

/-- The sixteen registers, ascending. -/
def allRegs : List Reg := [0, 1, 2, 3, 4, 5, 6, 7, 8, 9, 10, 11, 12, 13, 14, 15]

/-- V0 through Vx inclusive, ascending (R154, R155). -/
def regsUpTo (x : Reg) : List Reg := allRegs.take (x.val + 1)

/-- Store registers at `base + j`, in the order listed, each byte checked (R154). -/
def storeBlock (pc0 : Word) (base : Nat) : List Reg → State → (State → Result) → Result
  | [], s, k => k s
  | j :: js, s, k => writeByte pc0 (base + j.val) (s.getV j) s fun s => storeBlock pc0 base js s k

/-- Load registers from `base + j`, in the order listed; a fault leaves the ones before it loaded (R155). -/
def loadBlockRegs (pc0 : Word) (base : Nat) : List Reg → State → (State → Result) → Result
  | [], s, k => k s
  | j :: js, s, k => readByte pc0 (base + j.val) s fun b => loadBlockRegs pc0 base js (s.setV j b) k

/-- I after a block transfer of V0 to Vx: `trunc_16(I + x + 1)` (R154, R155). -/
def indexAfterBlock (i : Word) (x : Reg) : Word := i + BitVec.ofNat 16 (x.val + 1)

end Sys2Proof.Machine
end

