-- ==== Sys2Proof/Machine/Alu.lean ====
section
/-! DEFINITION. The meanings of the register loads and arithmetic (42_alu.md). Where an instruction writes a flag, VF is written
first and the result second, and a later statement reads the registers as the earlier ones left them (R142, decision D1). -/

namespace Sys2Proof.Machine

/-- `6xkk` LD Vx, byte (R130). -/
def execLdImm (x : Reg) (kk : Byte) (s : State) : Result := .next (s.setV x kk)

/-- `7xkk` ADD Vx, byte: no flag (R131). -/
def execAddImm (x : Reg) (kk : Byte) (s : State) : Result := .next (s.setV x (s.getV x + kk))

/-- `8xy0` LD Vx, Vy (R132). -/
def execLdReg (x y : Reg) (s : State) : Result := .next (s.setV x (s.getV y))

/-- `8xy1` OR Vx, Vy: VF is not touched (R133). -/
def execOrReg (x y : Reg) (s : State) : Result := .next (s.setV x (s.getV x ||| s.getV y))

/-- `8xy2` AND Vx, Vy (R134). -/
def execAndReg (x y : Reg) (s : State) : Result := .next (s.setV x (s.getV x &&& s.getV y))

/-- `8xy3` XOR Vx, Vy (R135). -/
def execXorReg (x y : Reg) (s : State) : Result := .next (s.setV x (s.getV x ^^^ s.getV y))

/-- `8xy4` ADD Vx, Vy: the sum is computed before VF is written (R136). -/
def execAddReg (x y : Reg) (s : State) : Result :=
  .next ((s.setV regVF (b2u (carryFlag (s.getV x) (s.getV y)))).setV x (s.getV x + s.getV y))

/-- `8xy5` SUB Vx, Vy: the difference reads Vx and Vy after the flag is written (R137). -/
def execSub (x y : Reg) (s : State) : Result :=
  let s := s.setV regVF (b2u (noBorrowFlag (s.getV x) (s.getV y)))
  .next (s.setV x (s.getV x - s.getV y))

/-- `8xy6` SHR Vx: Vy is not read; the shift reads Vx after the flag is written (R138). -/
def execShr (x _y : Reg) (s : State) : Result :=
  let s := s.setV regVF (b2u (shrFlag (s.getV x)))
  .next (s.setV x (s.getV x >>> 1))

/-- `8xy7` SUBN Vx, Vy: Vy minus Vx, read after the flag is written (R139). -/
def execSubn (x y : Reg) (s : State) : Result :=
  let s := s.setV regVF (b2u (noBorrowFlag (s.getV y) (s.getV x)))
  .next (s.setV x (s.getV y - s.getV x))

/-- `8xyE` SHL Vx: Vy is not read; the shift reads Vx after the flag is written (R140). -/
def execShl (x _y : Reg) (s : State) : Result :=
  let s := s.setV regVF (b2u (shlFlag (s.getV x)))
  .next (s.setV x (s.getV x <<< 1))

/-- `Cxkk` RND Vx, byte: a fresh free byte, masked by kk (R141, R144; log 1). -/
def execRnd (x : Reg) (kk : Byte) (s : State) : Result :=
  .next (({ s with draws := s.draws + 1 } : State).setV x (Config.randByte s.draws &&& kk))

end Sys2Proof.Machine
end

