-- ==== Sys2Proof/Machine/Flow.lean ====
section
/-! DEFINITION. The meanings of the control-flow instructions (41_flow.md). A meaning runs after the fetch has advanced PC. -/

namespace Sys2Proof.Machine

/-- `1nnn` JP (R110). -/
def execJp (nnn : Addr12) (s : State) : Result := .next { s with pc := zextAddr nnn }

/-- `00EE` RET: pop PC from the memory stack, then SP rises by 2 (R111). -/
def execRet (s : State) : Result :=
  readWord s.instrAddr s.sp.toNat s fun t => .next { s with pc := t, sp := s.sp + 2 }

/-- `2nnn` CALL: SP falls by 2, the return address is pushed, PC becomes nnn; SP stays decremented when the push faults
(R112). -/
def execCall (nnn : Addr12) (s : State) : Result :=
  writeWord s.instrAddr (s.sp - 2).toNat s.pc { s with sp := s.sp - 2 } fun s => .next { s with pc := zextAddr nnn }

/-- `3xkk` SE Vx, byte (R114). -/
def execSeImm (x : Reg) (kk : Byte) (s : State) : Result := .next (s.skipIf (s.getV x == kk))

/-- `4xkk` SNE Vx, byte (R115). -/
def execSneImm (x : Reg) (kk : Byte) (s : State) : Result := .next (s.skipIf (s.getV x != kk))

/-- `5xy0` SE Vx, Vy (R116). -/
def execSeReg (x y : Reg) (s : State) : Result := .next (s.skipIf (s.getV x == s.getV y))

/-- `9xy0` SNE Vx, Vy (R117). -/
def execSneReg (x y : Reg) (s : State) : Result := .next (s.skipIf (s.getV x != s.getV y))

/-- `Bnnn` JP V0, addr: the sum is not masked to 12 bits (R118, decision D12). -/
def execJpV0 (nnn : Addr12) (s : State) : Result := .next { s with pc := zextAddr nnn + zextByte (s.getV 0) }

end Sys2Proof.Machine
end

