-- ==== Sys2Proof/Machine/Index.lean ====
section
/-! DEFINITION. The meanings of the index-register and memory-transfer instructions (43_index_memory.md). Addresses computed from
I are unbounded integers (R51). -/

namespace Sys2Proof.Machine

/-- `Annn` LD I, addr (R150). -/
def execLdIndex (nnn : Addr12) (s : State) : Result := .next { s with i := zextAddr nnn }

/-- `Fx1E` ADD I, Vx: VF is written first, and the sum reads Vx after it (R151). -/
def execAddIndex (x : Reg) (s : State) : Result :=
  let s := s.setV regVF (b2u (indexFlag s.i (s.getV x)))
  .next { s with i := s.i + zextByte (s.getV x) }

/-- `Fx29` LD F, Vx: `FONT_BASE + 5 * Vx`, Vx not masked to 4 bits (R152, decision D14). -/
def execLdFont (x : Reg) (s : State) : Result :=
  .next { s with i := BitVec.ofNat 16 (Config.fontBase + Config.fontGlyphSize * (s.getV x).toNat) }

/-- `Fx33` LD B, Vx: the three decimal digits at I, I + 1, I + 2; I is not changed (R153). -/
def execLdBcd (x : Reg) (s : State) : Result :=
  writeByte s.instrAddr s.i.toNat (hundreds (s.getV x)) s fun s1 =>
    writeByte s.instrAddr (s.i.toNat + 1) (tens (s.getV x)) s1 fun s2 =>
      writeByte s.instrAddr (s.i.toNat + 2) (ones (s.getV x)) s2 .next

/-- `Fx55` LD [I], Vx: V0 to Vx at I upwards, then I advances by x + 1; a fault leaves I (R154). -/
def execStoreRegs (x : Reg) (s : State) : Result :=
  storeBlock s.instrAddr s.i.toNat (regsUpTo x) s fun s => .next { s with i := indexAfterBlock s.i x }

/-- `Fx65` LD Vx, [I]: V0 to Vx from I upwards, then I advances by x + 1; a fault leaves I (R155). -/
def execLoadRegs (x : Reg) (s : State) : Result :=
  loadBlockRegs s.instrAddr s.i.toNat (regsUpTo x) s fun s => .next { s with i := indexAfterBlock s.i x }

end Sys2Proof.Machine
end

