-- ==== Sys2Proof/Machine/Keys.lean ====
section
/-! DEFINITION. The meanings of the keypad and timer instructions (44_keys_timers.md). -/

namespace Sys2Proof.Machine

/-- `Ex9E` SKP Vx: skip when key Vx is down; Vx of 16 or more faults before the skip (R170). -/
def execSkp (x : Reg) (s : State) : Result :=
  keyDown s.instrAddr (s.getV x) s fun down => .next (s.skipIf down)

/-- `ExA1` SKNP Vx: skip when key Vx is up (R171). -/
def execSknp (x : Reg) (s : State) : Result :=
  keyDown s.instrAddr (s.getV x) s fun down => .next (s.skipIf !down)

/-- `Fx07` LD Vx, DT (R172). -/
def execLdVxDt (x : Reg) (s : State) : Result :=
  readByte s.instrAddr Config.dtAddr s fun b => .next (s.setV x b)

/-- `Fx0A` LD Vx, K: with no key down PC falls back to the instruction itself, which the next step runs again; else Vx becomes the
lowest key down (R173). -/
def execLdVxK (x : Reg) (s : State) : Result :=
  readKeys s.instrAddr s fun m =>
    if m = 0 then .next { s with pc := s.pc - 2 } else .next (s.setV x (BitVec.ofNat 8 (lowestKey m)))

/-- `Fx15` LD DT, Vx (R174). -/
def execLdDtVx (x : Reg) (s : State) : Result := writeByte s.instrAddr Config.dtAddr (s.getV x) s .next

/-- `Fx18` LD ST, Vx (R175). -/
def execLdStVx (x : Reg) (s : State) : Result := writeByte s.instrAddr Config.stAddr (s.getV x) s .next

end Sys2Proof.Machine
end

