-- ==== Sys2Proof/Machine/Screen.lean ====
section
/-! DEFINITION. The meanings of the screen instructions (40_screen.md). A meaning runs after the fetch has advanced PC. -/

namespace Sys2Proof.Machine

/-- `00E0` CLS: every byte of SCREEN becomes 0x00 (R100). -/
def execCls (s : State) : Result := .next { s with mem := s.mem.clearScreen }

/-- One sprite row: the columns in order; a position past the framebuffer faults whatever its bit; a 1 bit that meets a
nonzero byte is a collision; the byte is exclusive-ored (R101). -/
def drawRow (pc0 : Word) (px py : Nat) (b : Byte) :
    List Nat → State → Bool → (State → Bool → Result) → Result
  | [], s, collision, k => k s collision
  | c :: cs, s, collision, k =>
    if pixelIndex (px + c) py < Config.screenSize then
      drawRow pc0 px py b cs
        (s.setPixel (pixelIndex (px + c) py) (xorPixel (s.pixel (pixelIndex (px + c) py)) (spriteBit b c)))
        (collision || (spriteBit b c && s.pixel (pixelIndex (px + c) py) != 0x00)) k
    else raise .drawOutOfFramebuffer (pixelIndex (px + c) py) pc0 s

/-- The sprite rows in order; each row's byte is read just before the row is drawn (R101, decision D10). -/
def drawRows (pc0 : Word) (base vx vy : Nat) :
    List Nat → State → Bool → (State → Bool → Result) → Result
  | [], s, collision, k => k s collision
  | r :: rs, s, collision, k =>
    readByte pc0 (base + r) s fun b =>
      drawRow pc0 vx (vy + r) b (List.range 8) s collision fun s collision =>
        drawRows pc0 base vx vy rs s collision k

/-- `Dxyn` DRW: Vx and Vy are read once, before anything is written; VF receives the collision flag after all drawing, n = 0
included (R101). -/
def execDrw (x y : Reg) (n : Count4) (s : State) : Result :=
  drawRows s.instrAddr s.i.toNat (s.getV x).toNat (s.getV y).toNat (List.range n.val) s false
    fun s collision => .next (s.setV regVF (b2u collision))

end Sys2Proof.Machine
end

