-- ==== Sys2Proof/Machine/Undefined.lean ====
section
/-! DEFINITION. The meaning of the undefined words (45_undefined.md). -/

namespace Sys2Proof.Machine

/-- The no-op of an undefined word of groups 0, 5, 8, 9, E, F: nothing changes beyond the fetch advance; no operand, register
or key is read (R190-R196). -/
def execNop (_op : Word) (s : State) : Result := .next s

end Sys2Proof.Machine
end

