-- ==== Sys2Proof/Machine/Step.lean ====
section
/-! DEFINITION. One step: fetch, advance PC, decode, execute (30_encoding.md R80). -/

namespace Sys2Proof.Machine

/-- Execute what the decoder answers: an instruction's meaning, or the no-op of an undefined word (R85, R190). -/
def runDecoded (d : Decoded) (s : State) : Host.Outcome State Fault Refusal :=
  match d with
  | .instr i => exec i s
  | .nop op => execNop op s

/-- `step()` (R80). A machine that holds a fault record takes no further step (R200; log 6). The return value, always true,
is left out as R257 allows. -/
def step (s : State) : Host.Outcome State Fault Refusal :=
  match s.fault with
  | some _ => .fault (.runEnded s)
  | none => fetchWord s fun op => runDecoded (decodeWord op) s.advance

/-- The state with an instruction's word placed where `step` fetches next. A fault record is cleared, since a faulted
machine does not fetch, and a PC at which no word can be fetched is set to the CODE start; the rest is unchanged (log 10). -/
def State.withFetchWord (s : State) (nbits w : Nat) : State :=
  let s : State := { s with fault := none }
  let s : State := if s.pc.toNat + 1 < Config.totalSize then s else { s with pc := BitVec.ofNat 16 Config.codeBase }
  s.pokeWord s.pc.toNat (BitVec.ofNat 16 (w % 2 ^ nbits))

end Sys2Proof.Machine
end

