-- ==== Sys2Proof/Machine/HostActions.lean ====
section
/-! DEFINITION. What the host does to the core between two steps (60_exceptions.md R215-R224) and the boot order
(70_reset_and_hazards.md R240-R248). Each action is atomic; no program reaches one. -/

namespace Sys2Proof.Machine

/-- `loadBlock(addr, size, data)` with `size` the length of `data`: a bulk copy that checks only `addr + size` against the
total size, so ROM and the geometry registers can be loaded; a failing one writes nothing (R60; log 13). -/
def loadBlock (addr : Nat) (data : List Byte) (s : State) : Result :=
  if addr + data.length ≤ Config.totalSize then .next { s with mem := s.mem.putBytes addr data }
  else .fault (.loadOutOfBounds s)

/-- `reset()`: I, PC, SP, the registers, SCREEN and the fault record; nothing else (R240-R242). -/
def resetAction (s : State) : State :=
  { s with
    v := Vector.replicate 16 0
    i := BitVec.ofNat 16 Config.romBase
    pc := BitVec.ofNat 16 Config.codeBase
    sp := BitVec.ofNat 16 Config.spReset
    mem := s.mem.clearScreen
    fault := none }

/-- One timer's decrement: by one, and zero stays zero (R220, decision D15). -/
def countDown (b : Byte) : Byte := if b = 0 then 0 else b - 1

/-- `tick()`: both timers count down (R220). -/
def tick (s : State) : State :=
  let s := s.setByte Config.dtAddr (countDown (s.byteAt Config.dtAddr))
  s.setByte Config.stAddr (countDown (s.byteAt Config.stAddr))

/-- `setKeys(m)`: the keyboard driver writes the 16-bit mask into KEYS (R223, R69). -/
def setKeys (m : Word) (s : State) : State := s.pokeWord Config.keysAddr (periphImage m)

/-- `readScreen()`: the 2048 pixel bytes in order; reading has no effect (R224). -/
def readScreen (s : State) : List Byte := (List.range Config.screenSize).map s.pixel

/-- The geometry registers as the display driver reads them: width, height, x-scale, y-scale (R224, R66, R67). -/
def readGeometry (s : State) : Word × Word × Byte × Byte :=
  (periphValue (wordOfBytes (s.byteAt Config.scrwAddr) (s.byteAt (Config.scrwAddr + 1))),
   periphValue (wordOfBytes (s.byteAt Config.scrhAddr) (s.byteAt (Config.scrhAddr + 1))),
   s.byteAt Config.scrxsAddr, s.byteAt Config.scrysAddr)

/-- A pixel is lit when its byte is nonzero (R78). -/
def pixelLit (s : State) (column row : Nat) : Bool := s.pixel (pixelIndex column row) != 0

/-- The font image the boot loads: `FONT_ROM`, 512 bytes (R244). -/
def fontImage : List Byte := (List.range Config.romSize).map Config.fontRom

/-- The boot order of R245: construction and font load (their result is what an unlisted address reads as), the program at
the CODE start (R246), then reset. `none` stands for a ROM file that is unreadable or truncated: MalformedInput, and no
step (R207). DESIGN CHOICE (log 16): the state such a boot leaves. The spec ends the boot before reset and leaves the registers
there open (R34, R245), and does not say whether a truncated file's bytes were loaded; the model leaves State.reset's registers,
memory with no image byte in it, and the record. An image longer than `CODE_SIZE` is refused (R246). -/
def boot (image : Option (List Byte)) : Result :=
  match image with
  | none =>
    .fault (.malformedInput
      { State.reset with fault := some { code := .malformedInput, info := none, pc := none } })
  | some bytes =>
    if bytes.length ≤ Config.codeSize then
      .next (resetAction { State.reset with mem := Memory.putBytes State.reset.mem Config.codeBase bytes })
    else .refused (.imageTooLong bytes.length)

/-- The host's liberties between two steps of a run (R216, R248). Reading the screen changes nothing and stopping takes no
step, so neither stands here. -/
inductive HostAction where
  | tick
  | setKeys (m : Word)
  | reset
deriving DecidableEq, Repr

/-- What a host action does (R215). -/
def HostAction.apply : HostAction → State → State
  | .tick, s => Machine.tick s
  | .setKeys m, s => Machine.setKeys m s
  | .reset, s => resetAction s

end Sys2Proof.Machine
end

