-- ==== Sys2Proof/Safety.lean ====
section
/-! DEFINITION. What claims about the machine are stated in: the invariant, the runs with the host's actions between steps, the
ends of a run, and the spec's own lists of what each instruction may write and raise (10_state.md R22, R27, R29; 20_memory.md
R53; 60_exceptions.md R208), written from those lists and not from the meanings. -/

namespace Sys2Proof.Machine

/-! ## Faults -/

/-- The state a fault leaves (R200). -/
def Fault.left : Fault → State
  | .outOfBounds _ left => left
  | .readOnlyViolation _ left => left
  | .drawOutOfFramebuffer _ left => left
  | .keyIndexOutOfRange _ left => left
  | .geometryWrite _ left => left
  | .malformedInput left => left
  | .loadOutOfBounds left => left
  | .runEnded left => left

/-- The kind of fault an instruction or the boot raised (R201); a failed load and a step after the end are none of them. -/
def Fault.code : Fault → Option FaultCode
  | .outOfBounds _ _ => some .outOfBounds
  | .readOnlyViolation _ _ => some .readOnlyViolation
  | .drawOutOfFramebuffer _ _ => some .drawOutOfFramebuffer
  | .keyIndexOutOfRange _ _ => some .keyIndexOutOfRange
  | .geometryWrite _ _ => some .geometryWrite
  | .malformedInput _ => some .malformedInput
  | .loadOutOfBounds _ => none
  | .runEnded _ => none

/-- The fault a program's byte write to an address raises, none where the byte is stored; from the zones of R50 and the geometry
registers of R59, in the order of R209. -/
def writeFault (a : Nat) : Option FaultCode :=
  if Config.totalSize ≤ a then some .outOfBounds
  else if Zone.rom.contains a then some .readOnlyViolation
  else if Config.scrwAddr ≤ a ∧ a ≤ Config.scrysAddr then some .geometryWrite
  else none

/-- The faults each instruction can raise once it is fetched (R208). -/
def mayRaise : Instr → List FaultCode
  | .ret => [.outOfBounds]
  | .call _ => [.readOnlyViolation, .geometryWrite]
  | .drw _ _ _ => [.outOfBounds, .drawOutOfFramebuffer]
  | .skp _ => [.keyIndexOutOfRange]
  | .sknp _ => [.keyIndexOutOfRange]
  | .ldBcd _ => [.outOfBounds, .readOnlyViolation, .geometryWrite]
  | .storeRegs _ => [.outOfBounds, .readOnlyViolation, .geometryWrite]
  | .loadRegs _ => [.outOfBounds]
  | .cls => [] | .jp _ => [] | .seImm _ _ => [] | .sneImm _ _ => [] | .seReg _ _ => [] | .ldImm _ _ => []
  | .addImm _ _ => [] | .ldReg _ _ => [] | .orReg _ _ => [] | .andReg _ _ => [] | .xorReg _ _ => []
  | .addReg _ _ => [] | .sub _ _ => [] | .shr _ _ => [] | .subn _ _ => [] | .shl _ _ => [] | .sneReg _ _ => []
  | .ldIndex _ => [] | .jpV0 _ => [] | .rnd _ _ => [] | .ldVxDt _ => [] | .ldVxK _ => [] | .ldDtVx _ => []
  | .ldStVx _ => [] | .addIndex _ => [] | .ldFont _ => []

/-! ## What an instruction may write -/

/-- The general registers an instruction writes (R22). -/
def writesV : Instr → Reg → Prop
  | .ldImm x _, r => r = x
  | .addImm x _, r => r = x
  | .ldReg x _, r => r = x
  | .orReg x _, r => r = x
  | .andReg x _, r => r = x
  | .xorReg x _, r => r = x
  | .addReg x _, r => r = x ∨ r = regVF
  | .sub x _, r => r = x ∨ r = regVF
  | .shr x _, r => r = x ∨ r = regVF
  | .subn x _, r => r = x ∨ r = regVF
  | .shl x _, r => r = x ∨ r = regVF
  | .rnd x _, r => r = x
  | .drw _ _ _, r => r = regVF
  | .ldVxDt x, r => r = x
  | .ldVxK x, r => r = x
  | .addIndex _, r => r = regVF
  | .loadRegs x, r => r ≤ x
  | .cls, _ => False
  | .ret, _ => False
  | .jp _, _ => False
  | .call _, _ => False
  | .seImm _ _, _ => False
  | .sneImm _ _, _ => False
  | .seReg _ _, _ => False
  | .sneReg _ _, _ => False
  | .ldIndex _, _ => False
  | .jpV0 _, _ => False
  | .skp _, _ => False
  | .sknp _, _ => False
  | .ldDtVx _, _ => False
  | .ldStVx _, _ => False
  | .ldFont _, _ => False
  | .ldBcd _, _ => False
  | .storeRegs _, _ => False

/-- The addresses an instruction writes, started in a given state (the write rows of R53). -/
def writesByte : Instr → State → Nat → Prop
  | .cls, _, a => Config.screenBase ≤ a ∧ a < Config.screenBase + Config.screenSize
  | .drw _ _ _, _, a => Config.screenBase ≤ a ∧ a < Config.screenBase + Config.screenSize
  | .call _, s, a => a = (s.sp - 2).toNat ∨ a = (s.sp - 2).toNat + 1
  | .ldDtVx _, _, a => a = Config.dtAddr
  | .ldStVx _, _, a => a = Config.stAddr
  | .ldBcd _, s, a => s.i.toNat ≤ a ∧ a ≤ s.i.toNat + 2
  | .storeRegs x, s, a => s.i.toNat ≤ a ∧ a ≤ s.i.toNat + x.val
  | .ret, _, _ => False
  | .jp _, _, _ => False
  | .seImm _ _, _, _ => False
  | .sneImm _ _, _, _ => False
  | .seReg _ _, _, _ => False
  | .ldImm _ _, _, _ => False
  | .addImm _ _, _, _ => False
  | .ldReg _ _, _, _ => False
  | .orReg _ _, _, _ => False
  | .andReg _ _, _, _ => False
  | .xorReg _ _, _, _ => False
  | .addReg _ _, _, _ => False
  | .sub _ _, _, _ => False
  | .shr _ _, _, _ => False
  | .subn _ _, _, _ => False
  | .shl _ _, _, _ => False
  | .sneReg _ _, _, _ => False
  | .ldIndex _, _, _ => False
  | .jpV0 _, _, _ => False
  | .rnd _ _, _, _ => False
  | .skp _, _, _ => False
  | .sknp _, _, _ => False
  | .ldVxDt _, _, _ => False
  | .ldVxK _, _, _ => False
  | .addIndex _, _, _ => False
  | .ldFont _, _, _ => False
  | .loadRegs _, _, _ => False

/-- The instructions that write I (R27). -/
def writesI (i : Instr) : Prop :=
  (∃ nnn, i = .ldIndex nnn) ∨ (∃ x, i = .addIndex x) ∨ (∃ x, i = .ldFont x) ∨ (∃ x, i = .storeRegs x) ∨
    (∃ x, i = .loadRegs x)

/-- The instructions that change SP (R29). -/
def writesSP (i : Instr) : Prop := i = .ret ∨ ∃ nnn, i = .call nnn

/-- Register x holds b and every other general register and every other part of the state is as before. -/
def WritesOnly (s t : State) (x : Reg) (b : Byte) : Prop :=
  t = { s with v := t.v } ∧ t.getV x = b ∧ ∀ r, r ≠ x → t.getV r = s.getV r

/-! ## The invariant and the runs -/

/-- What every state between two steps of a run satisfies. -/
structure Inv (s : State) : Prop where
  /-- Memory is in its canonical form. -/
  memWf : s.mem.wf
  /-- SP stays even (R30). -/
  spEven : s.sp.toNat % 2 = 0
  /-- No push has gone below CODE (R203, R252). -/
  spLow : Config.codeBase ≤ s.sp.toNat
  /-- A successful pop leaves SP at most the end of memory (R112, R252). -/
  spHigh : s.sp.toNat ≤ Config.totalSize
  /-- ROM holds the font (R57, R241, R244). -/
  rom : ∀ a, a < Config.romSize → s.byteAt a = Config.fontRom a
  /-- The geometry registers hold their construction values (R59, R66, R67). -/
  geometry : readGeometry s = (BitVec.ofNat 16 Config.screenW, BitVec.ofNat 16 Config.screenH, Config.screenXScale, Config.screenYScale)
  /-- No fault has ended the run (R200). -/
  running : s.fault = none

/-- One move of a run: a step that answers a next state, a host action between two steps (R216), or the host's reset after a
fault, from the state the fault left (R248). DESIGN CHOICE, unsafe (log 9): loadBlock, which R215 lists too, is no move. -/
inductive Move : State → State → Prop where
  | step {s t : State} (h : step s = .next t) : Move s t
  | host {s : State} (act : HostAction) : Move s (act.apply s)
  | resetAfterFault {s : State} {f : Fault} (h : step s = .fault f) : Move s (resetAction f.left)

/-- The states a run reaches from a boot with some program image, under every interleaving of steps and the host actions of
`Move` (R216, R245; log 9: no loadBlock after the boot). -/
inductive Reachable : State → Prop where
  | boot {image : List Byte} {s : State} (h : boot (some image) = .next s) : Reachable s
  | move {s t : State} (hs : Reachable s) (h : Move s t) : Reachable t

/-- The word the next fetch reads. -/
def State.fetchedWord (s : State) : Word := wordOfBytes (s.byteAt s.pc.toNat) (s.byteAt (s.pc.toNat + 1))

/-- The halt of R256: the step about to run is a jump to itself. -/
def isHalted (s : State) : Prop :=
  s.fault = none ∧ s.pc.toNat + 1 < Config.totalSize ∧
    ∃ nnn, decodeWord s.fetchedWord = .instr (.jp nnn) ∧ nnn.toNat = s.pc.toNat

/-- The wait of R173: the step about to run is `Fx0A` and no key is down. -/
def isWaiting (s : State) : Prop :=
  s.fault = none ∧ s.pc.toNat + 1 < Config.totalSize ∧
    (∃ x, decodeWord s.fetchedWord = .instr (.ldVxK x)) ∧ s.byteAt Config.keysAddr = 0 ∧ s.byteAt (Config.keysAddr + 1) = 0

/-! ## Sprites -/

/-- The framebuffer index of column c of row r of a sprite drawn at V[x], V[y] (R102). -/
def spriteIndex (s : State) (x y : Reg) (r c : Nat) : Nat := ((s.getV y).toNat + r) * Config.screenW + ((s.getV x).toNat + c)

/-- Bit c (0 the most significant) of the sprite byte of row r, as memory holds it (R101). -/
def spriteBitAt (s : State) (r c : Nat) : Bool := (s.byteAt (s.i.toNat + r)).getLsbD (7 - c)

/-- Position (r, c) comes before position (r', c') in the order of R101's loops. -/
def drawnBefore (r c r' c' : Nat) : Prop := r < r' ∨ (r = r' ∧ c < c')

/-- The sprite bytes of the rows below `rows` are not pixels that an earlier row draws (R101: a row byte inside SCREEN reflects
the rows drawn before it). -/
def spriteApart (s : State) (x y : Reg) (rows : Nat) : Prop :=
  ∀ r, r < rows → ∀ r', r' < r → ∀ c, c < 8 → s.i.toNat + r ≠ Config.screenBase + spriteIndex s x y r' c

/-- In `t` exactly the positions that satisfy `drawn` are exclusive-ored with their sprite bits of `s`, and no other byte of
memory differs. -/
def DrawnExactly (s t : State) (x y : Reg) (drawn : Nat → Nat → Prop) : Prop :=
  (∀ r c, c < 8 → drawn r c →
    t.byteAt (Config.screenBase + spriteIndex s x y r c) =
      s.byteAt (Config.screenBase + spriteIndex s x y r c) ^^^ (if spriteBitAt s r c then 1 else 0)) ∧
  ∀ a, (∀ r c, c < 8 → drawn r c → a ≠ Config.screenBase + spriteIndex s x y r c) → t.byteAt a = s.byteAt a

end Sys2Proof.Machine
end

