-- ==== Sys2Proof/Certificates/Slice0/Obligations.lean ====
section
/-! DEFINITION. The statements for the provers, one `def Obligations.<Name> : Prop` each, from the numbered rules of spec/. An
instruction's statement is about `exec i s`, where `s` is the state the fetch left: PC is pc0 + 2 (30_encoding.md R80), so the
fault record's pc is `s.pc - 2`. A next state written `t = { s with … := t.… }` says that every other part of the state is
unchanged. A docstring names the decision (D<n> of 92_eei_decisions.md, the spec's own choice) or the log entry (the model's) that a
clause rests on. -/

open Sys2Proof Sys2Proof.Machine

/-! ## Reset, boot and the host -/

/-- R240, R241, R242: what the host's reset sets, and the memory it leaves. The spec's own choices here: SP's value (D2) and that
STACK and PERIPH stay (D25). -/
def Obligations.ResetActionSetsRegistersAndClearsScreen : Prop :=
  ∀ s : State,
    (∀ r, (resetAction s).getV r = 0) ∧ (resetAction s).i = 0x0000 ∧ (resetAction s).pc = 0x0200 ∧
    (resetAction s).sp = 0x1200 ∧ (resetAction s).fault = none ∧
    (∀ a, 0x1220 ≤ a → a ≤ 0x1A1F → (resetAction s).byteAt a = 0) ∧
    (∀ a, a < 0x1220 ∨ 0x1A20 ≤ a → (resetAction s).byteAt a = s.byteAt a)

/-- R240, R243, R244: the model's reset state is the boot with an empty image; its register values and its memory
(decisions D2, D5, D7; that State.reset is this boot is the model's choice, log 8). -/
def Obligations.ResetStateHoldsSpecValues : Prop :=
  boot (some []) = .next State.reset ∧
  (∀ r, State.reset.getV r = 0) ∧ State.reset.i = 0x0000 ∧ State.reset.pc = 0x0200 ∧ State.reset.sp = 0x1200 ∧
  State.reset.fault = none ∧ (∀ a, a < 0x0200 → State.reset.byteAt a = Config.fontRom a) ∧
  readGeometry State.reset = (64, 32, Config.screenXScale, Config.screenYScale) ∧
  (∀ a, 0x0200 ≤ a → a < 0x1204 ∨ 0x1209 < a → State.reset.byteAt a = 0)

/-- R246, R92: the image's bytes stand at 0x0200 upwards, every other byte keeps its earlier content, and an image longer than
CODE is refused (decision D22). -/
def Obligations.BootLoadsImageAtCodeStart : Prop :=
  ∀ image : List Byte,
    (image.length ≤ 3584 →
      ∃ t, boot (some image) = .next t ∧ t = { State.reset with mem := t.mem } ∧
        (∀ k (h : k < image.length), t.byteAt (0x0200 + k) = image[k]) ∧
        (∀ a, a < 0x0200 ∨ 0x0200 + image.length ≤ a → t.byteAt a = State.reset.byteAt a)) ∧
    (3584 < image.length → boot (some image) = .refused (.imageTooLong image.length))

/-- R60: a block within memory is copied byte for byte, in any zone; one past the end fails and writes nothing
(decision D22; the failure's name is the model's, log 13). -/
def Obligations.LoadBlockCopiesOrWritesNothing : Prop :=
  ∀ (s : State) (addr : Nat) (data : List Byte),
    (addr + data.length ≤ 0x1A20 →
      ∃ t, loadBlock addr data s = .next t ∧ t = { s with mem := t.mem } ∧
        (∀ k (h : k < data.length), t.byteAt (addr + k) = data[k]) ∧
        (∀ a, a < addr ∨ addr + data.length ≤ a → t.byteAt a = s.byteAt a)) ∧
    (0x1A20 < addr + data.length → loadBlock addr data s = .fault (.loadOutOfBounds s))

/-- R220: one tick takes each nonzero timer down by one and leaves zero at zero; nothing else changes (decision
D15). -/
def Obligations.TickCountsBothTimersDown : Prop :=
  ∀ s : State,
    ((tick s).byteAt 0x1202).toNat = (s.byteAt 0x1202).toNat - 1 ∧
    ((tick s).byteAt 0x1203).toNat = (s.byteAt 0x1203).toNat - 1 ∧
    (∀ a, a ≠ 0x1202 → a ≠ 0x1203 → (tick s).byteAt a = s.byteAt a) ∧
    tick s = { s with mem := (tick s).mem }

/-- R223, R69: the mask goes into KEYS high byte first; nothing else changes. -/
def Obligations.SetKeysWritesMaskBigEndian : Prop :=
  ∀ (s : State) (m : Word),
    (setKeys m s).byteAt 0x1200 = m.extractLsb' 8 8 ∧ (setKeys m s).byteAt 0x1201 = m.extractLsb' 0 8 ∧
    (∀ a, a ≠ 0x1200 → a ≠ 0x1201 → (setKeys m s).byteAt a = s.byteAt a) ∧
    setKeys m s = { s with mem := (setKeys m s).mem }

/-- R254: after `Fx15` with v and any number of ticks, `Fx07` reads v less the ticks, and never more than v. -/
def Obligations.DelayTimerReadsSetValueLessTicks : Prop :=
  ∀ (s : State) (x y : Reg), ∃ t, exec (.ldDtVx x) s = .next t ∧
    ∀ n : Nat, ∃ u, exec (.ldVxDt y) (tick^[n] t) = .next u ∧
      (u.getV y).toNat = (s.getV x).toNat - n ∧ (u.getV y).toNat ≤ (s.getV x).toNat

/-! ## Memory -/

/-- R55, R56: a byte read checks its address and nothing else; a word read is two byte reads, the high byte first, and faults at
the first of its bytes that is past memory. -/
def Obligations.ReadsCheckEachByteAndAreBigEndian : Prop :=
  ∀ (pc0 : Word) (s : State) (a : Nat) (kb : Byte → Result) (kw : Word → Result),
    (a < 0x1A20 → readByte pc0 a s kb = kb (s.byteAt a)) ∧
    (0x1A20 ≤ a → readByte pc0 a s kb = raise .outOfBounds a pc0 s ∧ readWord pc0 a s kw = raise .outOfBounds a pc0 s) ∧
    (a + 1 < 0x1A20 → ∃ w : Word, readWord pc0 a s kw = kw w ∧
      w.toNat = (s.byteAt a).toNat * 256 + (s.byteAt (a + 1)).toNat) ∧
    (a = 0x1A1F → readWord pc0 a s kw = raise .outOfBounds 0x1A20 pc0 s)

/-- R57, R59: a program's byte write past memory, into ROM or onto the geometry registers (decision D8) faults and stores nothing;
any other stores its byte and changes nothing else. -/
def Obligations.ByteWritesAreChecked : Prop :=
  ∀ (pc0 : Word) (s : State) (a : Nat) (v : Byte) (k : State → Result),
    (0x1A20 ≤ a → writeByte pc0 a v s k = raise .outOfBounds a pc0 s) ∧
    (a ≤ 0x01FF → writeByte pc0 a v s k = raise .readOnlyViolation a pc0 s) ∧
    (0x1204 ≤ a → a ≤ 0x1209 → writeByte pc0 a v s k = raise .geometryWrite a pc0 s) ∧
    ((0x0200 ≤ a ∧ a ≤ 0x1203) ∨ (0x120A ≤ a ∧ a ≤ 0x1A1F) →
      ∃ t, writeByte pc0 a v s k = k t ∧ t = { s with mem := t.mem } ∧ t.byteAt a = v ∧
        ∀ b, b ≠ a → t.byteAt b = s.byteAt b)

/-- R70: a word written is read back byte by byte, high byte at the word's address, and as a word. -/
def Obligations.WordWriteReadsBackBigEndian : Prop :=
  ∀ (pc0 : Word) (s : State) (a : Nat) (v : Word) (k k' : State → Result),
    writeFault a = none → writeFault (a + 1) = none →
    ∃ t, writeWord pc0 a v s k = k t ∧ t = { s with mem := t.mem } ∧
      t.byteAt a = v.extractLsb' 8 8 ∧ t.byteAt (a + 1) = v.extractLsb' 0 8 ∧
      (∀ b, b ≠ a → b ≠ a + 1 → t.byteAt b = s.byteAt b) ∧
      readWord pc0 a t (fun w => k' { t with pc := w }) = k' { t with pc := v }

/-- R58: a word write whose second byte fails leaves the first byte written; one whose first byte fails writes nothing (decision
D23: the high byte first). -/
def Obligations.WordWriteChecksEachByte : Prop :=
  ∀ (pc0 : Word) (s : State) (a : Nat) (v : Word) (k : State → Result) (code : FaultCode),
    (writeFault a = some code → writeWord pc0 a v s k = raise code a pc0 s) ∧
    (writeFault a = none → writeFault (a + 1) = some code →
      ∃ t, writeWord pc0 a v s k = raise code (a + 1) pc0 t ∧ t = { s with mem := t.mem } ∧
        t.byteAt a = v.extractLsb' 8 8 ∧ ∀ b, b ≠ a → t.byteAt b = s.byteAt b)

/-- The canonical form does its work: two memories that read alike at every address are equal (the form is the model's own). -/
def Obligations.CanonicalMemoriesThatReadAlikeAreEqual : Prop :=
  ∀ m n : Memory, m.wf → n.wf → (∀ a, m.lookup a = n.lookup a) → m = n

/-! ## Fetch, decode, encode -/

/-- R80: a step fetches the big-endian word at PC, advances PC by 2, and executes the instruction it decodes to. -/
def Obligations.StepRunsDecodedInstruction : Prop :=
  ∀ (s : State) (i : Instr), s.fault = none → s.pc.toNat + 1 < 0x1A20 →
    decodeWord (wordOfBytes (s.byteAt s.pc.toNat) (s.byteAt (s.pc.toNat + 1))) = .instr i →
    step s = exec i { s with pc := s.pc + 2 }

/-- R80, R200, R202: a fetch at or past the last byte faults, with PC unchanged and recorded (the record: decision D18). -/
def Obligations.FetchPastMemoryFaults : Prop :=
  ∀ (s : State), s.fault = none → 0x1A1F ≤ s.pc.toNat →
    step s = .fault (.outOfBounds (max s.pc.toNat 0x1A20)
      { s with fault := some ⟨.outOfBounds, some (max s.pc.toNat 0x1A20), some s.pc⟩ })

/-- R190: a step whose word is undefined in its group changes nothing but PC, which advances by 2. The words: `undefinedWord`,
from R191-R196. -/
def Obligations.UndefinedWordsOnlyAdvance : Prop :=
  ∀ s : State, s.fault = none → s.pc.toNat + 1 < 0x1A20 →
    undefinedWord (wordOfBytes (s.byteAt s.pc.toNat) (s.byteAt (s.pc.toNat + 1))) = true →
    step s = .next { s with pc := s.pc + 2 }

/-- R84: no two rows of the opcode table match the same word. -/
def Obligations.NoTwoTableRowsMatchOneWord : Prop :=
  ∀ (op : Word) (p q : OpcodeRow), p ∈ opcodeTable → q ∈ opcodeTable → p.accepts op = true → q.accepts op = true → p = q

/-- R85: the decoder answers the instruction of the row that matches, and the no-op where none does. -/
def Obligations.DecoderFollowsOpcodeTable : Prop :=
  ∀ op : Word,
    (∀ row ∈ opcodeTable, row.accepts op = true → ∃ i, decodeWord op = .instr i ∧ mnemonicOf i = row.mnemonic) ∧
    ((∀ row ∈ opcodeTable, row.accepts op = false) → decodeWord op = .nop op)

/-- R191-R196: the undefined words, listed group by group, are those that match no row. -/
def Obligations.UndefinedWordsAreThoseNoRowMatches : Prop :=
  ∀ op : Word, undefinedWord op = true ↔ ∀ row ∈ opcodeTable, row.accepts op = false

/-- Decoding an encoding gives back what was encoded, for every instruction with every operand and for every undefined word, and
leaves the bytes after it. -/
def Obligations.DecodeOfEncodeIsIdentity : Prop :=
  (∀ d : Decoded, d.wf = true → decodeWord (encodeDecoded d) = d) ∧
  ∀ (i : Instr) (rest : List Byte), decode (encodeBytes i ++ rest) = .ok (.instr i, rest)

/-- Every word is the encoding of what it decodes to, so decoding drops no bit, and what is decoded is well formed. -/
def Obligations.EncodeOfDecodeIsIdentity : Prop :=
  ∀ op : Word, encodeDecoded (decodeWord op) = op ∧ (decodeWord op).wf = true

/-- Words written out from the patterns of R84, one a family and the ones with two operands in each order. -/
def Obligations.WrittenOutWordsDecode : Prop :=
  decodeWord 0x00E0 = .instr .cls ∧ decodeWord 0x00EE = .instr .ret ∧ decodeWord 0x2ABC = .instr (.call 0xABC) ∧
  decodeWord 0x7A42 = .instr (.addImm 10 0x42) ∧ decodeWord 0x8125 = .instr (.sub 1 2) ∧
  decodeWord 0xD12F = .instr (.drw 1 2 15) ∧ decodeWord 0xE39E = .instr (.skp 3) ∧
  decodeWord 0xF265 = .instr (.loadRegs 2) ∧ decodeWord 0x812F = .nop 0x812F

/-! ## Screen -/

/-- R100: every framebuffer byte becomes 0, nothing else changes. -/
def Obligations.ClsZeroesTheFramebufferOnly : Prop :=
  ∀ s : State, ∃ t, exec .cls s = .next t ∧ t = { s with mem := t.mem } ∧
    (∀ a, 0x1220 ≤ a → a < 0x1A20 → t.byteAt a = 0) ∧
    (∀ a, a < 0x1220 ∨ 0x1A20 ≤ a → t.byteAt a = s.byteAt a)

/-- R101, R102: with every row byte readable and every pixel inside the framebuffer, DRW completes, exclusive-ors the sprite into
the framebuffer and sets VF to the collision flag; the case of a row byte that an earlier row drew over is in
`DrwDrawsRowByRow` (decisions D7, D9, D10). -/
def Obligations.DrwDrawsSpriteAndReportsCollision : Prop :=
  ∀ (s : State) (x y : Reg) (n : Count4),
    (∀ r, r < n.val → s.i.toNat + r < 0x1A20) →
    (∀ r c, r < n.val → c < 8 → spriteIndex s x y r c < 2048) →
    spriteApart s x y n.val →
    ∃ t, exec (.drw x y n) s = .next t ∧ t = { s with v := t.v, mem := t.mem } ∧
      DrawnExactly s t x y (fun r _ => r < n.val) ∧
      ((∃ r c, r < n.val ∧ c < 8 ∧ spriteBitAt s r c = true ∧ s.byteAt (0x1220 + spriteIndex s x y r c) ≠ 0) →
        t.getV 15 = 1) ∧
      ((∀ r c, r < n.val → c < 8 → spriteBitAt s r c = true → s.byteAt (0x1220 + spriteIndex s x y r c) = 0) →
        t.getV 15 = 0) ∧
      ∀ r, r ≠ 15 → t.getV r = s.getV r

/-- R101: a sprite of n + 1 rows is its first n rows and then one more row, whose byte is read from the memory those rows left;
so the effect is fixed also where the sprite bytes lie in the framebuffer being drawn. The last row is drawn by the same
instruction, with height 1, from a state whose I, V0 and V1 name that row (decision D10). -/
def Obligations.DrwDrawsRowByRow : Prop :=
  ∀ (s : State) (x y : Reg) (n m : Count4), m.val = n.val + 1 →
    (∀ r, r < m.val → s.i.toNat + r < 0x1A20) →
    (∀ r c, r < m.val → c < 8 → spriteIndex s x y r c < 2048) →
    ∃ t u w, exec (.drw x y n) s = .next t ∧
      exec (.drw 0 1 1)
        ((({ t with i := s.i + BitVec.ofNat 16 n.val } : State).setV 0 (s.getV x)).setV 1
          (s.getV y + BitVec.ofNat 8 n.val)) = .next u ∧
      exec (.drw x y m) s = .next w ∧ w = { s with v := w.v, mem := u.mem } ∧
      w.getV 15 = t.getV 15 ||| u.getV 15 ∧ ∀ r, r ≠ 15 → w.getV r = s.getV r

/-- R101, R202, R204: where row r's byte or position (r, c) is the first to fail, in the order of the loops, DRW faults with it and no
register changes (decisions D9, D29). Memory is what drawing the r rows before leaves, with the first c columns of row r drawn from
the byte that memory holds; so this is fixed also where an earlier row drew over a row byte. Where none did, the positions before
the fault hold the exclusive or with the sprite as it stood; where a row byte lies past memory none can have. -/
def Obligations.DrwFaultsAtFirstBadAccess : Prop :=
  ∀ (s : State) (x y : Reg) (n r : Count4) (c : Nat), r < n → c < 8 →
    (∀ r', r' < r.val → s.i.toNat + r' < 0x1A20) →
    (∀ r' c', c' < 8 → drawnBefore r' c' r.val c → spriteIndex s x y r' c' < 2048) →
    (s.i.toNat + r.val < 0x1A20 → 2048 ≤ spriteIndex s x y r.val c →
      ∃ u t, exec (.drw x y r) s = .next u ∧
        exec (.drw x y n) s = raise .drawOutOfFramebuffer (spriteIndex s x y r.val c) (s.pc - 2) t ∧
        t = { s with mem := t.mem } ∧
        (∀ c', c' < c → t.byteAt (0x1220 + spriteIndex s x y r.val c') =
          u.byteAt (0x1220 + spriteIndex s x y r.val c') ^^^
            (if (u.byteAt (s.i.toNat + r.val)).getLsbD (7 - c') then 1 else 0)) ∧
        (∀ a, (∀ c', c' < c → a ≠ 0x1220 + spriteIndex s x y r.val c') → t.byteAt a = u.byteAt a) ∧
        (spriteApart s x y (r.val + 1) → DrawnExactly s t x y (fun r' c' => drawnBefore r' c' r.val c))) ∧
    (0x1A20 ≤ s.i.toNat + r.val → c = 0 →
      ∃ u t, exec (.drw x y r) s = .next u ∧
        exec (.drw x y n) s = raise .outOfBounds (s.i.toNat + r.val) (s.pc - 2) t ∧
        t = { s with mem := u.mem } ∧ DrawnExactly s t x y (fun r' _ => r' < r.val))

/-- 90_conflicts.md C7 and R101's corner case, made exact: drawing the same sprite twice at the same place restores every byte, and
the second draw reports a collision exactly where a 1 bit of the sprite lies on a pixel byte other than 1 (decisions D7, D9, D10).
That VF = 0 where every 1 bit lies on a byte 1 is the model's reading (log 14, DEDUCED): R101's pseudocode and D10 give it, against
R101's corner case and C7, which word VF = 1 for every sprite with a 1 bit. -/
def Obligations.DrwTwiceRestoresTheScreen : Prop :=
  ∀ (s : State) (x y : Reg) (n : Count4),
    (∀ r, r < n.val → s.i.toNat + r < 0x1A20) →
    (∀ r c, r < n.val → c < 8 → spriteIndex s x y r c < 2048) →
    (∀ r r' c, r < n.val → r' < n.val → c < 8 → s.i.toNat + r ≠ 0x1220 + spriteIndex s x y r' c) →
    ∃ t, exec (.drw x y n) s = .next t ∧
      ∀ (t' : State) (x' y' : Reg), t'.mem = t.mem → t'.i = s.i → t'.getV x' = s.getV x → t'.getV y' = s.getV y →
        ∃ u, exec (.drw x' y' n) t' = .next u ∧ (∀ a, u.byteAt a = s.byteAt a) ∧
          ((∃ r c, r < n.val ∧ c < 8 ∧ spriteBitAt s r c = true ∧ s.byteAt (0x1220 + spriteIndex s x y r c) ≠ 1) →
            u.getV 15 = 1) ∧
          ((∀ r c, r < n.val → c < 8 → spriteBitAt s r c = true → s.byteAt (0x1220 + spriteIndex s x y r c) = 1) →
            u.getV 15 = 0)

/-! ## Control flow -/

/-- R110: JP sets PC to nnn; nothing else changes. -/
def Obligations.JpSetsProgramCounterOnly : Prop :=
  ∀ (s : State) (nnn : Addr12), ∃ t, exec (.jp nnn) s = .next t ∧ t = { s with pc := t.pc } ∧ t.pc.toNat = nnn.toNat

/-- R118: JP_V0 sets PC to nnn + V0, not masked to 12 bits (decision D12); nothing else changes. -/
def Obligations.JpV0SetsProgramCounterOnly : Prop :=
  ∀ (s : State) (nnn : Addr12), ∃ t, exec (.jpV0 nnn) s = .next t ∧ t = { s with pc := t.pc } ∧
    t.pc.toNat = nnn.toNat + (s.getV 0).toNat

/-- R113-R117: each skip advances PC by 2 more exactly when its comparison holds, and changes nothing else. -/
def Obligations.SkipsAdvanceWhenComparisonHolds : Prop :=
  ∀ (s : State) (x y : Reg) (kk : Byte),
    exec (.seImm x kk) s = .next (if s.getV x = kk then { s with pc := s.pc + 2 } else s) ∧
    exec (.sneImm x kk) s = .next (if s.getV x = kk then s else { s with pc := s.pc + 2 }) ∧
    exec (.seReg x y) s = .next (if s.getV x = s.getV y then { s with pc := s.pc + 2 } else s) ∧
    exec (.sneReg x y) s = .next (if s.getV x = s.getV y then s else { s with pc := s.pc + 2 })

/-- R112: CALL pushes the return address big-endian at SP - 2 and jumps; a push that faults leaves SP decremented and PC as it
was (which addresses fault: `writeFault`, with decision D8 for the geometry registers). -/
def Obligations.CallPushesReturnAddressAndJumps : Prop :=
  ∀ (s : State) (nnn : Addr12),
    (writeFault (s.sp - 2).toNat = none → writeFault ((s.sp - 2).toNat + 1) = none →
      ∃ t, exec (.call nnn) s = .next t ∧ t = { s with pc := t.pc, sp := t.sp, mem := t.mem } ∧
        t.pc.toNat = nnn.toNat ∧ t.sp = s.sp - 2 ∧
        t.byteAt (s.sp - 2).toNat = s.pc.extractLsb' 8 8 ∧ t.byteAt ((s.sp - 2).toNat + 1) = s.pc.extractLsb' 0 8 ∧
        ∀ a, a ≠ (s.sp - 2).toNat → a ≠ (s.sp - 2).toNat + 1 → t.byteAt a = s.byteAt a) ∧
    (∀ code, writeFault (s.sp - 2).toNat = some code →
      exec (.call nnn) s = raise code (s.sp - 2).toNat (s.pc - 2) { s with sp := s.sp - 2 }) ∧
    (∀ code, writeFault (s.sp - 2).toNat = none → writeFault ((s.sp - 2).toNat + 1) = some code →
      ∃ t, exec (.call nnn) s = raise code ((s.sp - 2).toNat + 1) (s.pc - 2) t ∧
        t = { s with sp := s.sp - 2, mem := t.mem } ∧ t.byteAt (s.sp - 2).toNat = s.pc.extractLsb' 8 8 ∧
        ∀ a, a ≠ (s.sp - 2).toNat → t.byteAt a = s.byteAt a)

/-- R111: RET pops PC from the big-endian word at SP and raises SP by 2; a pop past memory faults with SP and PC unchanged. -/
def Obligations.RetPopsProgramCounter : Prop :=
  ∀ s : State,
    (s.sp.toNat + 1 < 0x1A20 →
      exec .ret s = .next { s with pc := s.byteAt s.sp.toNat ++ s.byteAt (s.sp.toNat + 1), sp := s.sp + 2 }) ∧
    (0x1A20 ≤ s.sp.toNat → exec .ret s = raise .outOfBounds s.sp.toNat (s.pc - 2) s) ∧
    (s.sp.toNat = 0x1A1F → exec .ret s = raise .outOfBounds 0x1A20 (s.pc - 2) s)

/-- R120: a call and a later return, with SP balanced and the two pushed bytes not rewritten between them, go back to the
instruction after the call with SP restored. -/
def Obligations.ReturnGoesBackToTheCaller : Prop :=
  ∀ (s : State) (nnn : Addr12), 0x0202 ≤ s.sp.toNat → s.sp.toNat ≤ 0x1A20 →
    (s.sp.toNat - 2 < 0x1204 ∨ 0x1209 < s.sp.toNat - 2) → (s.sp.toNat - 1 < 0x1204 ∨ 0x1209 < s.sp.toNat - 1) →
    ∃ t, exec (.call nnn) s = .next t ∧
      ∀ t' : State, t'.sp = t.sp → t'.byteAt (s.sp.toNat - 2) = t.byteAt (s.sp.toNat - 2) →
        t'.byteAt (s.sp.toNat - 1) = t.byteAt (s.sp.toNat - 1) →
        exec .ret t' = .next { t' with pc := s.pc, sp := s.sp }

/-! ## Loads and arithmetic -/

/-- R130-R135: the loads, the immediate add and the logic operations write Vx and nothing else; VF is an ordinary register. -/
def Obligations.LoadsAndLogicWriteVxOnly : Prop :=
  ∀ (s : State) (x y : Reg) (kk : Byte),
    (∃ t, exec (.ldImm x kk) s = .next t ∧ WritesOnly s t x kk) ∧
    (∃ t, exec (.addImm x kk) s = .next t ∧
      WritesOnly s t x (BitVec.ofNat 8 (((s.getV x).toNat + kk.toNat) % 256))) ∧
    (∃ t, exec (.ldReg x y) s = .next t ∧ WritesOnly s t x (s.getV y)) ∧
    (∃ t, exec (.orReg x y) s = .next t ∧ WritesOnly s t x (s.getV x ||| s.getV y)) ∧
    (∃ t, exec (.andReg x y) s = .next t ∧ WritesOnly s t x (s.getV x &&& s.getV y)) ∧
    (∃ t, exec (.xorReg x y) s = .next t ∧ WritesOnly s t x (s.getV x ^^^ s.getV y))

/-- R136: the sum of the old values, modulo 256; VF the carry, unless x names VF, where the sum replaces it. -/
def Obligations.AddRegSumsAndCarries : Prop :=
  ∀ (s : State) (x y : Reg), ∃ t, exec (.addReg x y) s = .next t ∧ t = { s with v := t.v } ∧
    (t.getV x).toNat = ((s.getV x).toNat + (s.getV y).toNat) % 256 ∧
    (x ≠ 15 → t.getV 15 = if 255 < (s.getV x).toNat + (s.getV y).toNat then 1 else 0) ∧
    ∀ r, r ≠ x → r ≠ 15 → t.getV r = s.getV r

/-- R137, R142: VF is the strict no-borrow flag; the difference is taken after VF is written, so an operand that is VF is the
new flag (decision D1). -/
def Obligations.SubSubtractsAfterStrictFlag : Prop :=
  ∀ (s : State) (x y : Reg), ∃ t, exec (.sub x y) s = .next t ∧ t = { s with v := t.v } ∧
    let flag := if (s.getV y).toNat < (s.getV x).toNat then 1 else 0
    let a := if x = 15 then flag else (s.getV x).toNat
    let b := if y = 15 then flag else (s.getV y).toNat
    (t.getV x).toNat = (256 + a - b) % 256 ∧ (x ≠ 15 → (t.getV 15).toNat = flag) ∧
    ∀ r, r ≠ x → r ≠ 15 → t.getV r = s.getV r

/-- R139, R142: as SUB with the operands the other way round (decision D1). -/
def Obligations.SubnSubtractsAfterStrictFlag : Prop :=
  ∀ (s : State) (x y : Reg), ∃ t, exec (.subn x y) s = .next t ∧ t = { s with v := t.v } ∧
    let flag := if (s.getV x).toNat < (s.getV y).toNat then 1 else 0
    let a := if x = 15 then flag else (s.getV x).toNat
    let b := if y = 15 then flag else (s.getV y).toNat
    (t.getV x).toNat = (256 + b - a) % 256 ∧ (x ≠ 15 → (t.getV 15).toNat = flag) ∧
    ∀ r, r ≠ x → r ≠ 15 → t.getV r = s.getV r

/-- R138, R140, R142: the shifts move Vx by one, whatever y is; VF is the bit shifted out, and where x names VF the shift is of
that flag (decision D1). -/
def Obligations.ShiftsMoveVxByOne : Prop :=
  ∀ (s : State) (x y : Reg),
    (∃ t, exec (.shr x y) s = .next t ∧ t = { s with v := t.v } ∧
      (t.getV x).toNat = (if x = 15 then (s.getV x).toNat % 2 else (s.getV x).toNat) / 2 ∧
      (x ≠ 15 → (t.getV 15).toNat = (s.getV x).toNat % 2) ∧ ∀ r, r ≠ x → r ≠ 15 → t.getV r = s.getV r) ∧
    (∃ t, exec (.shl x y) s = .next t ∧ t = { s with v := t.v } ∧
      (t.getV x).toNat = (if x = 15 then (s.getV x).toNat / 128 else (s.getV x).toNat) * 2 % 256 ∧
      (x ≠ 15 → (t.getV 15).toNat = (s.getV x).toNat / 128) ∧ ∀ r, r ≠ x → r ≠ 15 → t.getV r = s.getV r)

/-- R141, R144: Vx becomes a free byte masked by kk, and the next draw is another (decision D17); nothing else changes. The draw's
number in `draws` is the model's own (log 1); the statement holds whatever bytes the free value gives. -/
def Obligations.RndMasksAFreshFreeByte : Prop :=
  ∀ (s : State) (x : Reg) (kk : Byte), ∃ t, exec (.rnd x kk) s = .next t ∧ t = { s with v := t.v, draws := s.draws + 1 } ∧
    t.getV x = Config.randByte s.draws &&& kk ∧ ∀ r, r ≠ x → t.getV r = s.getV r

/-! ## Index register and memory transfers -/

/-- R150, R152: LD_INDEX sets I to nnn, LD_FONT to 5 * Vx, unmasked (decision D14); nothing else changes. -/
def Obligations.LdIndexAndLdFontSetIOnly : Prop :=
  ∀ (s : State) (x : Reg) (nnn : Addr12),
    (∃ t, exec (.ldIndex nnn) s = .next t ∧ t = { s with i := t.i } ∧ t.i.toNat = nnn.toNat) ∧
    (∃ t, exec (.ldFont x) s = .next t ∧ t = { s with i := t.i } ∧ t.i.toNat = 5 * (s.getV x).toNat)

/-- R151, R142: VF says whether the unbounded sum passes 0x0FFF; I takes the sum modulo 65536, read after VF is written
(decisions D1, D13). -/
def Obligations.AddIndexFlagsPassing0FFF : Prop :=
  ∀ (s : State) (x : Reg), ∃ t, exec (.addIndex x) s = .next t ∧ t = { s with v := t.v, i := t.i } ∧
    (t.getV 15).toNat = (if 0x0FFF < s.i.toNat + (s.getV x).toNat then 1 else 0) ∧
    t.i.toNat = (s.i.toNat + (t.getV x).toNat) % 65536 ∧ ∀ r, r ≠ 15 → t.getV r = s.getV r

/-- R153: the three decimal digits of Vx go to I, I + 1, I + 2; I and the registers stay; the first byte that cannot be written
faults and the digits before it stay (decisions D8, D29). -/
def Obligations.BcdStoresThreeDigits : Prop :=
  ∀ (s : State) (x : Reg),
    let digit := fun k : Nat => (s.getV x).toNat / 10 ^ (2 - k) % 10
    ((∀ k, k < 3 → writeFault (s.i.toNat + k) = none) →
      ∃ t, exec (.ldBcd x) s = .next t ∧ t = { s with mem := t.mem } ∧
        (∀ k, k < 3 → (t.byteAt (s.i.toNat + k)).toNat = digit k) ∧
        ∀ a, a < s.i.toNat ∨ s.i.toNat + 3 ≤ a → t.byteAt a = s.byteAt a) ∧
    (∀ k code, k < 3 → (∀ j, j < k → writeFault (s.i.toNat + j) = none) → writeFault (s.i.toNat + k) = some code →
      ∃ t, exec (.ldBcd x) s = raise code (s.i.toNat + k) (s.pc - 2) t ∧ t = { s with mem := t.mem } ∧
        (∀ j, j < k → (t.byteAt (s.i.toNat + j)).toNat = digit j) ∧
        ∀ a, a < s.i.toNat ∨ s.i.toNat + k ≤ a → t.byteAt a = s.byteAt a)

/-- R154: V0 to Vx go to I upwards and I advances by x + 1; the first byte that cannot be written faults, the bytes before it
stay and I is not advanced (decisions D8, D29). -/
def Obligations.StoreRegsStoresAscendingBlock : Prop :=
  ∀ (s : State) (x : Reg),
    ((∀ j : Reg, j ≤ x → writeFault (s.i.toNat + j.val) = none) →
      ∃ t, exec (.storeRegs x) s = .next t ∧ t = { s with i := t.i, mem := t.mem } ∧
        t.i.toNat = (s.i.toNat + x.val + 1) % 65536 ∧
        (∀ j : Reg, j ≤ x → t.byteAt (s.i.toNat + j.val) = s.getV j) ∧
        ∀ a, a < s.i.toNat ∨ s.i.toNat + x.val < a → t.byteAt a = s.byteAt a) ∧
    (∀ (k : Reg) (code : FaultCode), k ≤ x → (∀ j : Reg, j < k → writeFault (s.i.toNat + j.val) = none) →
      writeFault (s.i.toNat + k.val) = some code →
      ∃ t, exec (.storeRegs x) s = raise code (s.i.toNat + k.val) (s.pc - 2) t ∧ t = { s with mem := t.mem } ∧
        (∀ j : Reg, j < k → t.byteAt (s.i.toNat + j.val) = s.getV j) ∧
        ∀ a, a < s.i.toNat ∨ s.i.toNat + k.val ≤ a → t.byteAt a = s.byteAt a)

/-- R155: V0 to Vx come from I upwards and I advances by x + 1; the first byte past memory faults, the registers before it keep
what they loaded and I is not advanced. -/
def Obligations.LoadRegsLoadsAscendingBlock : Prop :=
  ∀ (s : State) (x : Reg),
    (s.i.toNat + x.val < 0x1A20 →
      ∃ t, exec (.loadRegs x) s = .next t ∧ t = { s with v := t.v, i := t.i } ∧
        t.i.toNat = (s.i.toNat + x.val + 1) % 65536 ∧
        (∀ j : Reg, j ≤ x → t.getV j = s.byteAt (s.i.toNat + j.val)) ∧ ∀ j : Reg, x < j → t.getV j = s.getV j) ∧
    (∀ k : Reg, k ≤ x → (∀ j : Reg, j < k → s.i.toNat + j.val < 0x1A20) → 0x1A20 ≤ s.i.toNat + k.val →
      ∃ t, exec (.loadRegs x) s = raise .outOfBounds (s.i.toNat + k.val) (s.pc - 2) t ∧ t = { s with v := t.v } ∧
        (∀ j : Reg, j < k → t.getV j = s.byteAt (s.i.toNat + j.val)) ∧ ∀ j : Reg, k ≤ j → t.getV j = s.getV j)

/-! ## Keypad and timers -/

/-- R170, R171, R176, R69: SKP skips when bit Vx of the big-endian word KEYS is set, SKNP when it is clear; a key number of 16
or more faults with nothing changed (decision D11). -/
def Obligations.KeySkipsTestOneKeyBit : Prop :=
  ∀ (s : State) (x : Reg),
    ((s.getV x).toNat < 16 →
      exec (.skp x) s = .next (if (s.byteAt 0x1200 ++ s.byteAt 0x1201 : BitVec 16).getLsbD (s.getV x).toNat
        then { s with pc := s.pc + 2 } else s) ∧
      exec (.sknp x) s = .next (if (s.byteAt 0x1200 ++ s.byteAt 0x1201 : BitVec 16).getLsbD (s.getV x).toNat
        then s else { s with pc := s.pc + 2 })) ∧
    (16 ≤ (s.getV x).toNat →
      exec (.skp x) s = raise .keyIndexOutOfRange (s.getV x).toNat (s.pc - 2) s ∧
      exec (.sknp x) s = raise .keyIndexOutOfRange (s.getV x).toNat (s.pc - 2) s)

/-- R172, R174, R175: the timer instructions move one byte between Vx and DT or ST and change nothing else. -/
def Obligations.TimerInstructionsMoveOneByte : Prop :=
  ∀ (s : State) (x : Reg),
    (∃ t, exec (.ldVxDt x) s = .next t ∧ WritesOnly s t x (s.byteAt 0x1202)) ∧
    (∃ t, exec (.ldDtVx x) s = .next t ∧ t = { s with mem := t.mem } ∧ t.byteAt 0x1202 = s.getV x ∧
      ∀ a, a ≠ 0x1202 → t.byteAt a = s.byteAt a) ∧
    (∃ t, exec (.ldStVx x) s = .next t ∧ t = { s with mem := t.mem } ∧ t.byteAt 0x1203 = s.getV x ∧
      ∀ a, a ≠ 0x1203 → t.byteAt a = s.byteAt a)

/-- R173: with a key down, Vx becomes the lowest key; with none, PC falls back to the instruction and nothing else changes. -/
def Obligations.WaitKeyTakesLowestKeyOrRetries : Prop :=
  ∀ (s : State) (x : Reg),
    let keys : BitVec 16 := s.byteAt 0x1200 ++ s.byteAt 0x1201
    (keys = 0 → exec (.ldVxK x) s = .next { s with pc := s.pc - 2 }) ∧
    (keys ≠ 0 → ∃ t k, exec (.ldVxK x) s = .next t ∧ k < 16 ∧ keys.getLsbD k = true ∧
      (∀ j, j < k → keys.getLsbD j = false) ∧ WritesOnly s t x (BitVec.ofNat 8 k))

/-! ## The whole machine -/

/-- The invariant holds right after reset. Its clauses rest on the spec's values for SP (D2), the geometry registers (D7) and on the
model's memory form. -/
def Obligations.ResetStateMeetsInvariant : Prop := Inv State.reset

/-- The invariant is kept by every step that answers a next state, from every state that meets it. -/
def Obligations.EveryStepKeepsInvariant : Prop :=
  ∀ s t : State, Inv s → step s = .next t → Inv t

/-- Every state that any boot, then steps, ticks, key writes and resets in any interleaving, and resets after faults, can reach
meets the invariant. The runs are the model's choice (log 9, DESIGN CHOICE, unsafe): R215 lists loadBlock among the host's actions,
and a loadBlock after the boot, which could rewrite ROM or the geometry registers, is no move of these runs. -/
def Obligations.ReachableStatesMeetInvariant : Prop :=
  ∀ s : State, Reachable s → Inv s

/-- R57, R59, R77: no step changes a byte of ROM or of the geometry registers, or a byte outside memory. -/
def Obligations.StepsNeverWriteRomOrGeometry : Prop :=
  ∀ s t : State, step s = .next t → ∀ a, a < 0x0200 ∨ (0x1204 ≤ a ∧ a ≤ 0x1209) ∨ 0x1A20 ≤ a → t.byteAt a = s.byteAt a

/-- R22: a general register changes only by an instruction that the rule lists for it. -/
def Obligations.OnlyListedInstructionsWriteRegisters : Prop :=
  ∀ (i : Instr) (s t : State) (r : Reg), exec i s = .next t → t.getV r ≠ s.getV r → writesV i r

/-- R53: a byte of memory changes only by an instruction and at an address that the rule lists. -/
def Obligations.OnlyListedInstructionsWriteMemory : Prop :=
  ∀ (i : Instr) (s t : State) (a : Nat), exec i s = .next t → t.byteAt a ≠ s.byteAt a → writesByte i s a

/-- R27, R29: I and SP change only by the instructions the rules list; no instruction makes or clears a fault record. -/
def Obligations.OnlyListedInstructionsWriteIndexAndStackPointer : Prop :=
  ∀ (i : Instr) (s t : State), exec i s = .next t →
    (t.i ≠ s.i → writesI i) ∧ (t.sp ≠ s.sp → writesSP i) ∧ t.fault = s.fault

/-- R208: in a state of a run, an instruction raises only the faults the table lists for it. -/
def Obligations.InstructionsRaiseOnlyListedFaults : Prop :=
  ∀ (i : Instr) (s : State) (f : Fault), Inv s → exec i s = .fault f → ∃ code ∈ mayRaise i, f.code = some code

/-- R86, R88, R190: no step is refused. A step of a machine without a fault record runs or faults; that a step asked of a machine
with one answers runEnded, and so is no refusal either, is the model's choice (log 6, DESIGN CHOICE). -/
def Obligations.NoStepIsRefused : Prop :=
  ∀ (s : State) (why : Refusal), step s ≠ .refused why

/-- R200: a step that faults records its kind, a value, and the address of its instruction, and leaves PC at that address (a
fetch fault) or 2 past it (decision D18). -/
def Obligations.FaultRecordNamesTheInstruction : Prop :=
  ∀ (s : State) (f : Fault), s.fault = none → step s = .fault f →
    ∃ code info, f.code = some code ∧ f.left.fault = some ⟨code, some info, some s.pc⟩ ∧
      (f.left.pc = s.pc ∨ f.left.pc = s.pc + 2)

/-- R256 (decision D20): a machine about to run a jump to itself stays as it is under steps, and stays halted whatever the host does to KEYS
and the timers. -/
def Obligations.SelfJumpHaltsTheRun : Prop :=
  ∀ s : State, isHalted s → step s = .next s ∧ isHalted (tick s) ∧ ∀ m, isHalted (setKeys m s)

/-- R173, R228: a machine waiting for a key stays exactly as it is under steps, and a nonzero mask from the host ends the wait:
the next step passes the instruction. -/
def Obligations.KeyWaitLastsUntilHostSetsAKey : Prop :=
  ∀ s : State, isWaiting s → step s = .next s ∧
    ∀ m, m ≠ 0 → s.pc.toNat + 1 < 0x1200 ∨ 0x1201 < s.pc.toNat → ∃ t, step (setKeys m s) = .next t ∧ t.pc = s.pc + 2
end

