-- ==== Sys2Proof/Laws/Config.lean ====
section
/-! SUPPORT. The numbers behind the named constants of Config, for arithmetic in proofs (00_scope.md R7, 20_memory.md R50, R62). -/

namespace Sys2Proof

theorem Config.romBase_eq : Config.romBase = 0 := rfl
theorem Config.codeBase_eq : Config.codeBase = 0x0200 := rfl
theorem Config.stackBase_eq : Config.stackBase = 0x1000 := rfl
theorem Config.periphBase_eq : Config.periphBase = 0x1200 := rfl
theorem Config.screenBase_eq : Config.screenBase = 0x1220 := rfl
theorem Config.totalSize_eq : Config.totalSize = 0x1A20 := rfl
theorem Config.screenSize_eq : Config.screenSize = 2048 := rfl
theorem Config.screenEnd_eq : Config.screenBase + Config.screenSize = 0x1A20 := rfl
theorem Config.codeSize_eq : Config.codeSize = 3584 := rfl
theorem Config.romSize_eq : Config.romSize = 512 := rfl
theorem Config.keysAddr_eq : Config.keysAddr = 0x1200 := rfl
theorem Config.dtAddr_eq : Config.dtAddr = 0x1202 := rfl
theorem Config.stAddr_eq : Config.stAddr = 0x1203 := rfl
theorem Config.scrwAddr_eq : Config.scrwAddr = 0x1204 := rfl
theorem Config.scrhAddr_eq : Config.scrhAddr = 0x1206 := rfl
theorem Config.scrxsAddr_eq : Config.scrxsAddr = 0x1208 := rfl
theorem Config.scrysAddr_eq : Config.scrysAddr = 0x1209 := rfl
theorem Config.spReset_eq : Config.spReset = 0x1200 := rfl
theorem Config.numKeys_eq : Config.numKeys = 16 := rfl
theorem Config.screenW_eq : Config.screenW = 64 := rfl
theorem Config.screenH_eq : Config.screenH = 32 := rfl
theorem Config.iCarryLimit_eq : Config.iCarryLimit = 0x0FFF := rfl
theorem Config.addrMask_eq : Config.addrMask = 0x0FFF := rfl
theorem Config.fontBase_eq : Config.fontBase = 0 := rfl
theorem Config.fontGlyphSize_eq : Config.fontGlyphSize = 5 := rfl

/-- The zones tile the address space: every valid address lies in exactly one (R50, R51). -/
theorem Zone.exists_unique_of_lt (a : Nat) (h : a < Config.totalSize) :
    ∃ z : Zone, z.contains a = true ∧ ∀ z' : Zone, z'.contains a = true → z' = z := by
  have key : ∀ z : Zone, z.contains a = true ↔ z.base ≤ a ∧ a < z.base + z.size := by
    intro z; simp [Zone.contains]
  simp only [key]
  rw [Config.totalSize_eq] at h
  have b0 : Zone.rom.base = 0 ∧ Zone.rom.size = 512 := ⟨rfl, rfl⟩
  have b1 : Zone.code.base = 512 ∧ Zone.code.size = 3584 := ⟨rfl, rfl⟩
  have b2 : Zone.stack.base = 4096 ∧ Zone.stack.size = 512 := ⟨rfl, rfl⟩
  have b3 : Zone.periph.base = 4608 ∧ Zone.periph.size = 32 := ⟨rfl, rfl⟩
  have b4 : Zone.screen.base = 4640 ∧ Zone.screen.size = 2048 := ⟨rfl, rfl⟩
  by_cases h1 : a < 512
  · exact ⟨.rom, by omega, fun z' hz => by cases z' <;> first | rfl | omega⟩
  by_cases h2 : a < 4096
  · exact ⟨.code, by omega, fun z' hz => by cases z' <;> first | rfl | omega⟩
  by_cases h3 : a < 4608
  · exact ⟨.stack, by omega, fun z' hz => by cases z' <;> first | rfl | omega⟩
  by_cases h4 : a < 4640
  · exact ⟨.periph, by omega, fun z' hz => by cases z' <;> first | rfl | omega⟩
  · exact ⟨.screen, by omega, fun z' hz => by cases z' <;> first | rfl | omega⟩

end Sys2Proof
end

