-- ==== Sys2Proof/Laws/Decode.lean ====
section
/-! SUPPORT. The fields of a word and the packed words as numbers (30_encoding.md R81, R82), the fields of a packed word, and a word
rebuilt from its fields. -/

namespace Sys2Proof

/-! ## Fields and packed words as numbers -/

theorem opGroup_toNat (op : Word) : (opGroup op).toNat = op.toNat / 4096 := by
  simp only [opGroup, BitVec.extractLsb'_toNat, Nat.shiftRight_eq_div_pow]
  omega

theorem opX_val (op : Word) : (opX op).val = op.toNat / 256 % 16 := by
  show (op.extractLsb' 8 4).toNat = _
  simp only [BitVec.extractLsb'_toNat, Nat.shiftRight_eq_div_pow]

theorem opY_val (op : Word) : (opY op).val = op.toNat / 16 % 16 := by
  show (op.extractLsb' 4 4).toNat = _
  simp only [BitVec.extractLsb'_toNat, Nat.shiftRight_eq_div_pow]

theorem opN_toNat (op : Word) : (opN op).toNat = op.toNat % 16 := by
  simp [opN, BitVec.extractLsb'_toNat]

theorem opKK_toNat (op : Word) : (opKK op).toNat = op.toNat % 256 := by
  simp [opKK, BitVec.extractLsb'_toNat]

theorem opNNN_toNat (op : Word) : (opNNN op).toNat = op.toNat % 4096 := by
  have h : op.toNat &&& 0x0FFF = op.toNat % 4096 := Nat.and_two_pow_sub_one_eq_mod op.toNat 12
  rw [opNNN, Config.addrMask_eq, BitVec.toNat_setWidth, BitVec.toNat_and]
  exact (congrArg (· % 4096) h).trans (Nat.mod_mod _ _)

theorem hiByte_toNat (w : Word) : (hiByte w).toNat = w.toNat / 256 := by
  simp only [hiByte, BitVec.extractLsb'_toNat, Nat.shiftRight_eq_div_pow]
  omega

theorem loByte_toNat (w : Word) : (loByte w).toNat = w.toNat % 256 := by
  simp [loByte, BitVec.extractLsb'_toNat]

theorem regField_toNat (x : Reg) : (regField x).toNat = x.val := rfl

theorem append_toNat {m n : Nat} (a : BitVec m) (b : BitVec n) : (a ++ b).toNat = a.toNat * 2 ^ n + b.toNat := by
  rw [BitVec.toNat_append, ← Nat.shiftLeft_add_eq_or_of_lt b.isLt, Nat.shiftLeft_eq]

theorem wordOfBytes_toNat (hi lo : Byte) : (wordOfBytes hi lo).toNat = hi.toNat * 256 + lo.toNat := append_toNat hi lo

theorem packAddr_toNat (g : BitVec 4) (nnn : Addr12) : (packAddr g nnn).toNat = g.toNat * 4096 + nnn.toNat :=
  append_toNat g nnn

theorem packRegByte_toNat (g : BitVec 4) (x : Reg) (kk : Byte) :
    (packRegByte g x kk).toNat = g.toNat * 4096 + x.val * 256 + kk.toNat := by
  have h := append_toNat (g ++ regField x) kk
  rw [append_toNat g (regField x), regField_toNat] at h
  exact h.trans (by omega)

theorem packRegReg_toNat (g : BitVec 4) (x y : Reg) (n : BitVec 4) :
    (packRegReg g x y n).toNat = g.toNat * 4096 + x.val * 256 + y.val * 16 + n.toNat := by
  have h := append_toNat (g ++ regField x ++ regField y) n
  rw [append_toNat (g ++ regField x) (regField y), append_toNat g (regField x), regField_toNat, regField_toNat] at h
  exact h.trans (by omega)

/-! ## The fields of a packed word -/

section
variable (g : BitVec 4) (x y : Reg) (n : BitVec 4) (kk : Byte) (nnn : Addr12)

@[simp] theorem opGroup_packAddr : opGroup (packAddr g nnn) = g := by
  apply BitVec.eq_of_toNat_eq; rw [opGroup_toNat, packAddr_toNat]; omega

@[simp] theorem opNNN_packAddr : opNNN (packAddr g nnn) = nnn := by
  apply BitVec.eq_of_toNat_eq; rw [opNNN_toNat, packAddr_toNat]; omega

@[simp] theorem opGroup_packRegByte : opGroup (packRegByte g x kk) = g := by
  apply BitVec.eq_of_toNat_eq; rw [opGroup_toNat, packRegByte_toNat]; omega

@[simp] theorem opX_packRegByte : opX (packRegByte g x kk) = x := by
  apply Fin.ext; rw [opX_val, packRegByte_toNat]; omega

@[simp] theorem opKK_packRegByte : opKK (packRegByte g x kk) = kk := by
  apply BitVec.eq_of_toNat_eq; rw [opKK_toNat, packRegByte_toNat]; omega

@[simp] theorem opGroup_packRegReg : opGroup (packRegReg g x y n) = g := by
  apply BitVec.eq_of_toNat_eq; rw [opGroup_toNat, packRegReg_toNat]; omega

@[simp] theorem opX_packRegReg : opX (packRegReg g x y n) = x := by
  apply Fin.ext; rw [opX_val, packRegReg_toNat]; omega

@[simp] theorem opY_packRegReg : opY (packRegReg g x y n) = y := by
  apply Fin.ext; rw [opY_val, packRegReg_toNat]; omega

@[simp] theorem opN_packRegReg : opN (packRegReg g x y n) = n := by
  apply BitVec.eq_of_toNat_eq; rw [opN_toNat, packRegReg_toNat]; omega

end

/-! ## A word rebuilt from its fields or its bytes -/

theorem packAddr_fields (op : Word) : packAddr (opGroup op) (opNNN op) = op := by
  apply BitVec.eq_of_toNat_eq; rw [packAddr_toNat, opGroup_toNat, opNNN_toNat]; omega

theorem packRegByte_fields (op : Word) : packRegByte (opGroup op) (opX op) (opKK op) = op := by
  apply BitVec.eq_of_toNat_eq; rw [packRegByte_toNat, opGroup_toNat, opX_val, opKK_toNat]; omega

theorem packRegReg_fields (op : Word) : packRegReg (opGroup op) (opX op) (opY op) (opN op) = op := by
  apply BitVec.eq_of_toNat_eq; rw [packRegReg_toNat, opGroup_toNat, opX_val, opY_val, opN_toNat]; omega

@[simp] theorem wordOfBytes_hi_lo (w : Word) : wordOfBytes (hiByte w) (loByte w) = w := by
  apply BitVec.eq_of_toNat_eq; rw [wordOfBytes_toNat, hiByte_toNat, loByte_toNat]; omega

@[simp] theorem hiByte_wordOfBytes (hi lo : Byte) : hiByte (wordOfBytes hi lo) = hi := by
  apply BitVec.eq_of_toNat_eq; rw [hiByte_toNat, wordOfBytes_toNat]; omega

@[simp] theorem loByte_wordOfBytes (hi lo : Byte) : loByte (wordOfBytes hi lo) = lo := by
  apply BitVec.eq_of_toNat_eq; rw [loByte_toNat, wordOfBytes_toNat]; omega

/-! ## The masks of the opcode table -/

theorem getLsbD_and_mask (op m : Word) (i : Nat) : (op &&& m).getLsbD i = (op.getLsbD i && m.getLsbD i) :=
  BitVec.getLsbD_and

/-- Mask 0xF000 keeps the group (R84: formats ADDR, REG_IMM, DRAW). -/
theorem and_F000 (op : Word) : op &&& 0xF000#16 = packAddr (opGroup op) 0#12 := by
  apply BitVec.eq_of_getLsbD_eq
  intro i hi
  rw [getLsbD_and_mask]
  show _ = (opGroup op ++ (0 : Addr12)).getLsbD i
  rw [BitVec.getLsbD_append]
  interval_cases i <;> simp [opGroup]

/-- Mask 0xF00F keeps the group and the low digit (R84: format REG_REG). -/
theorem and_F00F (op : Word) : op &&& 0xF00F#16 = packRegReg (opGroup op) 0 0 (opN op) := by
  apply BitVec.eq_of_getLsbD_eq
  intro i hi
  rw [getLsbD_and_mask]
  show _ = (opGroup op ++ regField 0 ++ regField 0 ++ opN op).getLsbD i
  rw [BitVec.getLsbD_append, BitVec.getLsbD_append, BitVec.getLsbD_append]
  interval_cases i <;> simp [opGroup, opN, regField]

/-- Mask 0xF0FF keeps the group and the low byte (R84: format REG_FN). -/
theorem and_F0FF (op : Word) : op &&& 0xF0FF#16 = packRegByte (opGroup op) 0 (opKK op) := by
  apply BitVec.eq_of_getLsbD_eq
  intro i hi
  rw [getLsbD_and_mask]
  show _ = (opGroup op ++ regField 0 ++ opKK op).getLsbD i
  rw [BitVec.getLsbD_append, BitVec.getLsbD_append]
  interval_cases i <;> simp [opGroup, opKK, regField]

end Sys2Proof
end

