-- ==== Sys2Proof/Laws/Memory.lean ====
section
/-! SUPPORT. The laws of the memory array: read after write, read elsewhere, and that every memory operation keeps the canonical
form. The read laws hold of every list, canonical or not. -/

namespace Sys2Proof.Machine

@[simp] theorem Memory.lookup_nil (a : Nat) : Memory.lookup [] a = Memory.initByte a := rfl

theorem Memory.lookup_cons (c : Host.Cell) (m : Memory) (a : Nat) :
    Memory.lookup (c :: m) a = if a = c.1 then c.2 else Memory.lookup m a := rfl

/-- Dropping cells by address: the addresses kept read as before, those dropped as unlisted. -/
theorem Memory.lookup_filter (p : Nat → Bool) (m : Memory) (a : Nat) :
    Memory.lookup (m.filter fun c => p c.1) a = if p a then Memory.lookup m a else Memory.initByte a := by
  induction m with
  | nil => simp
  | cons c m ih =>
    by_cases hc : p c.1 = true
    · rw [List.filter_cons_of_pos (by exact hc), Memory.lookup_cons, Memory.lookup_cons, ih]
      by_cases ha : a = c.1 <;> simp [ha, hc]
    · rw [List.filter_cons_of_neg (by exact hc), ih, Memory.lookup_cons]
      by_cases ha : a = c.1 <;> simp [ha, hc]

theorem Memory.lookup_erase (m : Memory) (a b : Nat) :
    Memory.lookup (m.erase a) b = if b = a then Memory.initByte b else Memory.lookup m b := by
  have h := Memory.lookup_filter (fun x => x != a) m b
  by_cases hb : b = a <;> simp_all [Memory.erase]

theorem Memory.lookup_insert (m : Memory) (a b : Nat) (v : Byte) (h : ∀ c ∈ m, c.1 ≠ a) :
    Memory.lookup (m.insert a v) b = if b = a then v else Memory.lookup m b := by
  induction m with
  | nil => simp [Memory.insert, Memory.lookup_cons]
  | cons c m ih =>
    have hc : c.1 ≠ a := h c (by simp)
    have ih := ih fun d hd => h d (by simp [hd])
    by_cases hlt : a < c.1
    · simp [Memory.insert, hlt, Memory.lookup_cons]
    · simp only [Memory.insert, hlt, if_false, Memory.lookup_cons, ih]
      by_cases hb : b = c.1
      · simp [hb, hc]
      · simp [hb]

theorem Memory.ne_of_mem_erase {m : Memory} {a : Nat} {c : Host.Cell} (h : c ∈ m.erase a) : c.1 ≠ a := by
  simpa [Memory.erase] using (List.mem_filter.mp h).2

/-- Read after write (R55, R57). -/
theorem Memory.lookup_put (m : Memory) (a b : Nat) (v : Byte) :
    Memory.lookup (m.put a v) b = if b = a then v else Memory.lookup m b := by
  unfold Memory.put
  split
  · rename_i hv
    rw [Memory.lookup_erase]
    by_cases hb : b = a <;> simp [hb, hv]
  · rw [Memory.lookup_insert _ _ _ _ (fun c hc => Memory.ne_of_mem_erase hc), Memory.lookup_erase]
    by_cases hb : b = a <;> simp [hb]

@[simp] theorem Memory.lookup_put_self (m : Memory) (a : Nat) (v : Byte) : Memory.lookup (m.put a v) a = v := by
  simp [Memory.lookup_put]

theorem Memory.lookup_put_ne (m : Memory) {a b : Nat} (v : Byte) (h : b ≠ a) :
    Memory.lookup (m.put a v) b = Memory.lookup m b := by
  simp [Memory.lookup_put, h]

/-- Read after a run of writes: the byte stored where one was, else as before. -/
theorem Memory.lookup_putBytes (vs : List Byte) (m : Memory) (a b : Nat) :
    Memory.lookup (m.putBytes a vs) b =
      if h : a ≤ b ∧ b < a + vs.length then vs[b - a]'(by omega) else Memory.lookup m b := by
  induction vs generalizing m a with
  | nil =>
    have : ¬ (a ≤ b ∧ b < a + ([] : List Byte).length) := by simp
    simp only [Memory.putBytes, this, dite_false]
  | cons v vs ih =>
    rw [Memory.putBytes, ih]
    by_cases h1 : a + 1 ≤ b ∧ b < a + 1 + vs.length
    · have h2 : a ≤ b ∧ b < a + (v :: vs).length := by simp; omega
      rw [dif_pos h1, dif_pos h2]
      have : b - a = (b - (a + 1)) + 1 := by omega
      simp [this]
    · rw [dif_neg h1, Memory.lookup_put]
      by_cases hb : b = a
      · subst hb
        have h2 : b ≤ b ∧ b < b + (v :: vs).length := by simp
        rw [dif_pos h2]; simp
      · have h2 : ¬ (a ≤ b ∧ b < a + (v :: vs).length) := by simp; omega
        rw [dif_neg h2, if_neg hb]

/-- The framebuffer's addresses (R50). -/
theorem Zone.screen_contains (a : Nat) : Zone.screen.contains a = decide (0x1220 ≤ a ∧ a < 0x1A20) := by
  have hb : Zone.screen.base = 0x1220 := rfl
  have hs : Zone.screen.size = 2048 := rfl
  simp [Zone.contains, hb, hs]

theorem Memory.initByte_rom {a : Nat} (h : a < 0x0200) : Memory.initByte a = Config.fontRom a := if_pos h

/-- Outside ROM and the geometry registers an unlisted address reads as zero (R243). -/
theorem Memory.initByte_zero {a : Nat} (h : 0x0200 ≤ a) (h' : a < 0x1204 ∨ 0x1209 < a) : Memory.initByte a = 0 := by
  simp only [Memory.initByte, Config.codeBase_eq, Config.scrwAddr_eq, Config.scrhAddr_eq, Config.scrxsAddr_eq,
    Config.scrysAddr_eq]
  simp only [show ¬ a < 512 by omega, show a ≠ 4612 by omega, show a ≠ 4612 + 1 by omega, show a ≠ 4614 by omega,
    show a ≠ 4614 + 1 by omega, show a ≠ 4616 by omega, show a ≠ 4617 by omega, if_false]

theorem Memory.initByte_screen (a : Nat) (h : Zone.screen.contains a = true) : Memory.initByte a = 0 := by
  rw [Zone.screen_contains] at h
  have h := of_decide_eq_true h
  exact Memory.initByte_zero (by omega) (by omega)

/-- Clearing the framebuffer is storing 0x00 at each of its addresses (R100, R240). -/
theorem Memory.lookup_clearScreen (m : Memory) (a : Nat) :
    Memory.lookup m.clearScreen a = if Zone.screen.contains a then 0 else Memory.lookup m a := by
  have h := Memory.lookup_filter (fun x => !Zone.screen.contains x) m a
  rw [Memory.clearScreen, h]
  by_cases hs : Zone.screen.contains a = true
  · simp [hs, Memory.initByte_screen a hs]
  · simp [hs]

/-! ## The canonical form -/

theorem Memory.wf_nil : Memory.wf [] := by simp [Memory.wf]

theorem Memory.wf_filter {m : Memory} (p : Host.Cell → Bool) (h : m.wf) : Memory.wf (m.filter p) :=
  ⟨h.1.filter p, fun c hc => h.2 c (List.mem_of_mem_filter hc)⟩

theorem Memory.mem_insert {m : Memory} {a : Nat} {v : Byte} {c : Host.Cell} (h : c ∈ m.insert a v) :
    c = (a, v) ∨ c ∈ m := by
  induction m with
  | nil => simpa [Memory.insert] using h
  | cons d m ih =>
    unfold Memory.insert at h
    split at h
    · simpa using h
    · rcases List.mem_cons.mp h with rfl | h
      · simp
      · rcases ih h with h | h <;> simp [h]

theorem Memory.pairwise_insert {m : Memory} {a : Nat} {v : Byte} (h : m.Pairwise fun c d => c.1 < d.1)
    (ha : ∀ c ∈ m, c.1 ≠ a) : (m.insert a v).Pairwise fun c d => c.1 < d.1 := by
  induction m with
  | nil => simp [Memory.insert]
  | cons c m ih =>
    have hc := List.pairwise_cons.mp h
    unfold Memory.insert
    split
    · rename_i hlt
      refine List.pairwise_cons.mpr ⟨?_, h⟩
      intro d hd
      rcases List.mem_cons.mp hd with rfl | hd
      · exact hlt
      · exact Nat.lt_trans hlt (hc.1 d hd)
    · rename_i hlt
      refine List.pairwise_cons.mpr ⟨?_, ih hc.2 fun d hd => ha d (by simp [hd])⟩
      intro d hd
      rcases Memory.mem_insert hd with rfl | hd
      · have : c.1 ≠ a := ha c (by simp)
        simp only; omega
      · exact hc.1 d hd

/-- Storing a byte inside memory keeps the canonical form. -/
theorem Memory.wf_put {m : Memory} (a : Nat) (v : Byte) (h : m.wf) (ha : a < Config.totalSize) : (m.put a v).wf := by
  have he : Memory.wf (m.erase a) := Memory.wf_filter _ h
  unfold Memory.put
  split
  · exact he
  · rename_i hv
    refine ⟨Memory.pairwise_insert he.1 fun c hc => Memory.ne_of_mem_erase hc, fun c hc => ?_⟩
    rcases Memory.mem_insert hc with rfl | hc
    · exact ⟨ha, hv⟩
    · exact he.2 c hc

/-- Storing a run of bytes inside memory keeps the canonical form. -/
theorem Memory.wf_putBytes (vs : List Byte) {m : Memory} (a : Nat) (h : m.wf) (ha : a + vs.length ≤ Config.totalSize) :
    (m.putBytes a vs).wf := by
  induction vs generalizing m a with
  | nil => exact h
  | cons v vs ih =>
    simp only [List.length_cons] at ha
    exact ih (a + 1) (Memory.wf_put a v h (by omega)) (by omega)

/-- Clearing the framebuffer keeps the canonical form. -/
theorem Memory.wf_clearScreen {m : Memory} (h : m.wf) : m.clearScreen.wf := Memory.wf_filter _ h

/-- A canonical memory reads a listed cell as it is listed. -/
theorem Memory.lookup_of_mem {m : Memory} {c : Host.Cell} (h : m.wf) (hc : c ∈ m) : Memory.lookup m c.1 = c.2 := by
  induction m with
  | nil => simp at hc
  | cons d m ih =>
    have hp := List.pairwise_cons.mp h.1
    have hm : Memory.wf m := ⟨hp.2, fun e he => h.2 e (by simp [he])⟩
    rw [Memory.lookup_cons]
    rcases List.mem_cons.mp hc with rfl | hc
    · simp
    · have := hp.1 _ hc
      rw [if_neg (by omega), ih hm hc]

/-- An address that does not read as an unlisted one is listed. -/
theorem Memory.mem_of_lookup_ne {m : Memory} {a : Nat} (h : Memory.lookup m a ≠ Memory.initByte a) :
    (a, Memory.lookup m a) ∈ m := by
  induction m with
  | nil => simp at h
  | cons c m ih =>
    rw [Memory.lookup_cons] at h ⊢
    by_cases hc : a = c.1
    · subst hc; simp
    · simp only [hc, if_false] at h ⊢
      exact List.mem_cons_of_mem _ (ih h)

end Sys2Proof.Machine
end

