-- ==== Sys2Proof/Laws/State.lean ====
section
/-! SUPPORT. One lemma per field per update of the state, true by rfl; reading a register or a byte after an update. -/

namespace Sys2Proof.Machine

variable (s : State)

/-! ## Writing a register -/

@[simp] theorem State.setV_i (r : Reg) (b : Byte) : (s.setV r b).i = s.i := rfl
@[simp] theorem State.setV_pc (r : Reg) (b : Byte) : (s.setV r b).pc = s.pc := rfl
@[simp] theorem State.setV_sp (r : Reg) (b : Byte) : (s.setV r b).sp = s.sp := rfl
@[simp] theorem State.setV_mem (r : Reg) (b : Byte) : (s.setV r b).mem = s.mem := rfl
@[simp] theorem State.setV_fault (r : Reg) (b : Byte) : (s.setV r b).fault = s.fault := rfl
@[simp] theorem State.setV_draws (r : Reg) (b : Byte) : (s.setV r b).draws = s.draws := rfl
@[simp] theorem State.setV_byteAt (r : Reg) (b : Byte) (a : Nat) : (s.setV r b).byteAt a = s.byteAt a := rfl
@[simp] theorem State.setV_instrAddr (r : Reg) (b : Byte) : (s.setV r b).instrAddr = s.instrAddr := rfl

/-- Register read after register write (R12, R21). -/
theorem State.getV_setV (r q : Reg) (b : Byte) : (s.setV r b).getV q = if q = r then b else s.getV q := by
  simp only [State.getV, State.setV]
  by_cases h : q = r
  · subst h; simp
  · have : (r : Nat) ≠ q := fun e => h (Fin.ext e.symm)
    simp [h, this]

@[simp] theorem State.getV_setV_self (r : Reg) (b : Byte) : (s.setV r b).getV r = b := by simp [State.getV_setV]

theorem State.getV_setV_ne {r q : Reg} (b : Byte) (h : q ≠ r) : (s.setV r b).getV q = s.getV q := by
  simp [State.getV_setV, h]

/-! ## Writing a byte -/

@[simp] theorem State.setByte_v (a : Nat) (v : Byte) : (s.setByte a v).v = s.v := rfl
@[simp] theorem State.setByte_i (a : Nat) (v : Byte) : (s.setByte a v).i = s.i := rfl
@[simp] theorem State.setByte_pc (a : Nat) (v : Byte) : (s.setByte a v).pc = s.pc := rfl
@[simp] theorem State.setByte_sp (a : Nat) (v : Byte) : (s.setByte a v).sp = s.sp := rfl
@[simp] theorem State.setByte_fault (a : Nat) (v : Byte) : (s.setByte a v).fault = s.fault := rfl
@[simp] theorem State.setByte_draws (a : Nat) (v : Byte) : (s.setByte a v).draws = s.draws := rfl
@[simp] theorem State.setByte_mem (a : Nat) (v : Byte) : (s.setByte a v).mem = s.mem.put a v := rfl
@[simp] theorem State.setByte_getV (a : Nat) (v : Byte) (r : Reg) : (s.setByte a v).getV r = s.getV r := rfl
@[simp] theorem State.setByte_instrAddr (a : Nat) (v : Byte) : (s.setByte a v).instrAddr = s.instrAddr := rfl

/-- Byte read after byte write. -/
theorem State.byteAt_setByte (a b : Nat) (v : Byte) : (s.setByte a v).byteAt b = if b = a then v else s.byteAt b :=
  Memory.lookup_put s.mem a b v

@[simp] theorem State.byteAt_setByte_self (a : Nat) (v : Byte) : (s.setByte a v).byteAt a = v := by
  simp [State.byteAt_setByte]

theorem State.byteAt_setByte_ne {a b : Nat} (v : Byte) (h : b ≠ a) : (s.setByte a v).byteAt b = s.byteAt b := by
  simp [State.byteAt_setByte, h]

/-- A byte write changes the memory and nothing else. -/
theorem State.setByte_eq (a : Nat) (v : Byte) : s.setByte a v = { s with mem := (s.setByte a v).mem } := rfl

/-- A register write changes the register file and nothing else. -/
theorem State.setV_eq (r : Reg) (b : Byte) : s.setV r b = { s with v := (s.setV r b).v } := rfl

theorem State.setPixel_eq (j : Nat) (v : Byte) : s.setPixel j v = s.setByte (Config.screenBase + j) v := rfl

theorem State.pixel_eq (j : Nat) : s.pixel j = s.byteAt (Config.screenBase + j) := rfl

/-! ## PC, the skip and the fault record -/

@[simp] theorem State.advance_v : s.advance.v = s.v := rfl
@[simp] theorem State.advance_i : s.advance.i = s.i := rfl
@[simp] theorem State.advance_pc : s.advance.pc = s.pc + 2 := rfl
@[simp] theorem State.advance_sp : s.advance.sp = s.sp := rfl
@[simp] theorem State.advance_mem : s.advance.mem = s.mem := rfl
@[simp] theorem State.advance_fault : s.advance.fault = s.fault := rfl
@[simp] theorem State.advance_draws : s.advance.draws = s.draws := rfl
@[simp] theorem State.advance_getV (r : Reg) : s.advance.getV r = s.getV r := rfl
@[simp] theorem State.advance_byteAt (a : Nat) : s.advance.byteAt a = s.byteAt a := rfl

/-- While an instruction executes, the address of the instruction is PC less 2 (R24). -/
@[simp] theorem State.advance_instrAddr : s.advance.instrAddr = s.pc := by
  simp [State.instrAddr, State.advance]

@[simp] theorem State.recordFault_v (c : FaultCode) (n : Nat) (p : Word) : (s.recordFault c n p).v = s.v := rfl
@[simp] theorem State.recordFault_i (c : FaultCode) (n : Nat) (p : Word) : (s.recordFault c n p).i = s.i := rfl
@[simp] theorem State.recordFault_pc (c : FaultCode) (n : Nat) (p : Word) : (s.recordFault c n p).pc = s.pc := rfl
@[simp] theorem State.recordFault_sp (c : FaultCode) (n : Nat) (p : Word) : (s.recordFault c n p).sp = s.sp := rfl
@[simp] theorem State.recordFault_mem (c : FaultCode) (n : Nat) (p : Word) : (s.recordFault c n p).mem = s.mem := rfl
@[simp] theorem State.recordFault_draws (c : FaultCode) (n : Nat) (p : Word) : (s.recordFault c n p).draws = s.draws := rfl
@[simp] theorem State.recordFault_fault (c : FaultCode) (n : Nat) (p : Word) :
    (s.recordFault c n p).fault = some ⟨c, some n, some p⟩ := rfl

theorem State.skipIf_eq (c : Bool) : s.skipIf c = if c = true then { s with pc := s.pc + 2 } else s := rfl

@[simp] theorem State.skipIf_v (c : Bool) : (s.skipIf c).v = s.v := by cases c <;> rfl
@[simp] theorem State.skipIf_i (c : Bool) : (s.skipIf c).i = s.i := by cases c <;> rfl
@[simp] theorem State.skipIf_sp (c : Bool) : (s.skipIf c).sp = s.sp := by cases c <;> rfl
@[simp] theorem State.skipIf_mem (c : Bool) : (s.skipIf c).mem = s.mem := by cases c <;> rfl
@[simp] theorem State.skipIf_fault (c : Bool) : (s.skipIf c).fault = s.fault := by cases c <;> rfl
@[simp] theorem State.skipIf_draws (c : Bool) : (s.skipIf c).draws = s.draws := by cases c <;> rfl
@[simp] theorem State.skipIf_getV (c : Bool) (r : Reg) : (s.skipIf c).getV r = s.getV r := by cases c <;> rfl

/-! ## Placing a word, and the host's reset -/

@[simp] theorem State.pokeWord_v (a : Nat) (w : Word) : (s.pokeWord a w).v = s.v := rfl
@[simp] theorem State.pokeWord_i (a : Nat) (w : Word) : (s.pokeWord a w).i = s.i := rfl
@[simp] theorem State.pokeWord_pc (a : Nat) (w : Word) : (s.pokeWord a w).pc = s.pc := rfl
@[simp] theorem State.pokeWord_sp (a : Nat) (w : Word) : (s.pokeWord a w).sp = s.sp := rfl
@[simp] theorem State.pokeWord_fault (a : Nat) (w : Word) : (s.pokeWord a w).fault = s.fault := rfl
@[simp] theorem State.pokeWord_draws (a : Nat) (w : Word) : (s.pokeWord a w).draws = s.draws := rfl

theorem State.byteAt_pokeWord (a b : Nat) (w : Word) :
    (s.pokeWord a w).byteAt b = if b = a + 1 then loByte w else if b = a then hiByte w else s.byteAt b := by
  simp [State.pokeWord, State.byteAt_setByte]

@[simp] theorem resetAction_i : (resetAction s).i = 0 := rfl
@[simp] theorem resetAction_pc : (resetAction s).pc = 0x0200 := rfl
@[simp] theorem resetAction_sp : (resetAction s).sp = 0x1200 := rfl
@[simp] theorem resetAction_fault : (resetAction s).fault = none := rfl
@[simp] theorem resetAction_mem : (resetAction s).mem = s.mem.clearScreen := rfl
@[simp] theorem resetAction_draws : (resetAction s).draws = s.draws := rfl

theorem resetAction_byteAt (a : Nat) :
    (resetAction s).byteAt a = if 0x1220 ≤ a ∧ a < 0x1A20 then 0 else s.byteAt a := by
  show Memory.lookup (resetAction s).mem a = _
  rw [resetAction_mem, Memory.lookup_clearScreen, Zone.screen_contains]
  by_cases h : 0x1220 ≤ a ∧ a < 0x1A20 <;> simp [h, State.byteAt]

/-! ## The timers and KEYS -/

theorem countDown_toNat (b : Byte) : (countDown b).toNat = b.toNat - 1 := by
  revert b; decide

theorem tick_byteAt (a : Nat) :
    (tick s).byteAt a =
      if a = 0x1203 then countDown (s.byteAt 0x1203)
      else if a = 0x1202 then countDown (s.byteAt 0x1202) else s.byteAt a := by
  simp [tick, State.byteAt_setByte, Config.dtAddr, Config.stAddr, Config.periphBase_eq]

theorem tick_eq : tick s = { s with mem := (tick s).mem } := rfl

/-- The host's key write is a big-endian word at 0x1200 (R223, R69). -/
theorem setKeys_eq (m : Word) : setKeys m s = s.pokeWord 0x1200 m := by
  have : hiByte m ++ loByte m = m := by
    apply BitVec.eq_of_getLsbD_eq
    intro i hi
    rw [BitVec.getLsbD_append]
    interval_cases i <;> simp [hiByte, loByte]
  show s.pokeWord _ (hiByte m ++ loByte m) = _
  rw [this]; rfl

end Sys2Proof.Machine
end

