-- ==== Sys2Proof/Laws/Ops.lean ====
section
/-! SUPPORT. One lemma per shared operation that says all it can do: the memory unit's accessors, raising a fault, the fetch, the
key test and the register blocks. Provers cite these and do not unfold the operations. -/

namespace Sys2Proof.Machine

/-! ## Raising a fault -/

/-- A raised fault is a fault of that kind, whose state is the given one with the record written (R200). -/
theorem raise_eq_fault (code : FaultCode) (info : Nat) (pc0 : Word) (s : State) :
    ∃ f, raise code info pc0 s = .fault f ∧ f.code = some code ∧ f.left = s.recordFault code info pc0 := by
  cases code <;> exact ⟨_, rfl, rfl, rfl⟩

@[simp] theorem raise_ne_next (code : FaultCode) (info : Nat) (pc0 : Word) (s t : State) :
    raise code info pc0 s ≠ .next t := by
  cases code <;> simp [raise]

@[simp] theorem raise_ne_refused (code : FaultCode) (info : Nat) (pc0 : Word) (s : State) (why : Refusal) :
    raise code info pc0 s ≠ .refused why := by
  cases code <;> simp [raise]

/-! ## The byte accessors -/

theorem readByte_of_lt {a : Nat} (h : a < 0x1A20) (pc0 : Word) (s : State) (k : Byte → Result) :
    readByte pc0 a s k = k (s.byteAt a) := if_pos h

theorem readByte_of_ge {a : Nat} (h : 0x1A20 ≤ a) (pc0 : Word) (s : State) (k : Byte → Result) :
    readByte pc0 a s k = raise .outOfBounds a pc0 s := if_neg (Nat.not_lt.mpr h)

theorem readByte_next {pc0 : Word} {a : Nat} {s t : State} {k : Byte → Result} :
    readByte pc0 a s k = .next t ↔ a < 0x1A20 ∧ k (s.byteAt a) = .next t := by
  by_cases h : a < 0x1A20
  · simp [readByte_of_lt h, h]
  · simp [readByte_of_ge (Nat.not_lt.mp h), h]

theorem readWord_of_lt {a : Nat} (h : a + 1 < 0x1A20) (pc0 : Word) (s : State) (k : Word → Result) :
    readWord pc0 a s k = k (wordOfBytes (s.byteAt a) (s.byteAt (a + 1))) := by
  rw [readWord, readByte_of_lt (by omega), readByte_of_lt h]

theorem readWord_next {pc0 : Word} {a : Nat} {s t : State} {k : Word → Result} :
    readWord pc0 a s k = .next t ↔ a + 1 < 0x1A20 ∧ k (wordOfBytes (s.byteAt a) (s.byteAt (a + 1))) = .next t := by
  rw [readWord, readByte_next, readByte_next]
  exact ⟨fun h => h.2, fun h => ⟨by omega, h⟩⟩

/-- The fault of an address, in numbers (R50, R57, R59). -/
theorem writeFault_eq (a : Nat) :
    writeFault a =
      if 0x1A20 ≤ a then some .outOfBounds
      else if a < 0x0200 then some .readOnlyViolation
      else if 0x1204 ≤ a ∧ a ≤ 0x1209 then some .geometryWrite
      else none := by
  have hb : Zone.rom.base = 0 := rfl
  have hs : Zone.rom.size = 512 := rfl
  unfold writeFault
  rw [Config.totalSize_eq, Config.scrwAddr_eq, Config.scrysAddr_eq]
  simp [Zone.contains, hb, hs]

/-- The program's byte write, whole (R57, R59, R209). -/
theorem writeByte_eq (pc0 : Word) (a : Nat) (v : Byte) (s : State) (k : State → Result) :
    writeByte pc0 a v s k =
      match writeFault a with
      | none => k (s.setByte a v)
      | some code => raise code a pc0 s := by
  rw [writeFault_eq]
  unfold writeByte isGeometry
  rw [Config.totalSize_eq, Config.codeBase_eq, Config.scrwAddr_eq, Config.scrysAddr_eq]
  by_cases h1 : a < 0x1A20
  · by_cases h2 : a < 0x200
    · simp [h1, h2, Nat.not_le.mpr h1]
    · by_cases h3 : 0x1204 ≤ a ∧ a ≤ 0x1209
      · simp [h1, h2, h3, Nat.not_le.mpr h1]
      · have : ¬ (0x1204 ≤ a ∧ a ≤ 0x1209) := h3
        simp only [h1, h2, Nat.not_le.mpr h1, if_true, if_false, this]
        rw [if_neg]
        simpa using h3
  · simp [h1, Nat.not_lt.mp h1]

theorem writeByte_of_ok {a : Nat} (h : writeFault a = none) (pc0 : Word) (v : Byte) (s : State) (k : State → Result) :
    writeByte pc0 a v s k = k (s.setByte a v) := by rw [writeByte_eq, h]

theorem writeByte_of_fault {a : Nat} {code : FaultCode} (h : writeFault a = some code) (pc0 : Word) (v : Byte) (s : State)
    (k : State → Result) : writeByte pc0 a v s k = raise code a pc0 s := by rw [writeByte_eq, h]

/-- Where a program may write: inside memory, not in ROM, not on the geometry registers (R57, R59). -/
theorem writeFault_eq_none {a : Nat} :
    writeFault a = none ↔ 0x0200 ≤ a ∧ a < 0x1A20 ∧ (a < 0x1204 ∨ 0x1209 < a) := by
  rw [writeFault_eq]
  by_cases h1 : 0x1A20 ≤ a
  · simp [h1]
  · by_cases h2 : a < 0x200
    · simp [h1, h2]
    · by_cases h3 : 0x1204 ≤ a ∧ a ≤ 0x1209
      · simp [h1, h2, h3]
      · simp only [h1, h2, h3, if_false, true_iff]
        omega

/-- The fault of an address that a program may not write is one of the memory unit's (R57, R59). -/
theorem writeFault_code {a : Nat} {code : FaultCode} (h : writeFault a = some code) :
    (code = .outOfBounds ∧ 0x1A20 ≤ a) ∨ (code = .readOnlyViolation ∧ a < 0x0200) ∨
      (code = .geometryWrite ∧ 0x1204 ≤ a ∧ a ≤ 0x1209) := by
  rw [writeFault_eq] at h
  by_cases h1 : 0x1A20 ≤ a
  · simp [h1] at h; exact .inl ⟨h.symm, h1⟩
  · by_cases h2 : a < 0x200
    · simp [h1, h2] at h; exact .inr (.inl ⟨h.symm, h2⟩)
    · by_cases h3 : 0x1204 ≤ a ∧ a ≤ 0x1209
      · simp [h1, h2, h3] at h; exact .inr (.inr ⟨h.symm, h3⟩)
      · simp [h1, h2] at h; omega

theorem writeByte_next {pc0 : Word} {a : Nat} {v : Byte} {s t : State} {k : State → Result} :
    writeByte pc0 a v s k = .next t ↔ writeFault a = none ∧ k (s.setByte a v) = .next t := by
  rw [writeByte_eq]
  cases h : writeFault a <;> simp

/-- The program's word write: both bytes writable (R58). -/
theorem writeWord_next {pc0 : Word} {a : Nat} {v : Word} {s t : State} {k : State → Result} :
    writeWord pc0 a v s k = .next t ↔
      writeFault a = none ∧ writeFault (a + 1) = none ∧
        k ((s.setByte a (hiByte v)).setByte (a + 1) (loByte v)) = .next t := by
  rw [writeWord, writeByte_next, writeByte_next]

/-- Where a byte write faults, a fault of the whole comes from it or from what follows. -/
theorem writeByte_fault {pc0 : Word} {a : Nat} {v : Byte} {s : State} {k : State → Result} {f : Fault} :
    writeByte pc0 a v s k = .fault f ↔
      (∃ code, writeFault a = some code ∧ raise code a pc0 s = .fault f) ∨
        (writeFault a = none ∧ k (s.setByte a v) = .fault f) := by
  rw [writeByte_eq]
  cases h : writeFault a <;> simp

theorem readByte_fault {pc0 : Word} {a : Nat} {s : State} {k : Byte → Result} {f : Fault} :
    readByte pc0 a s k = .fault f ↔
      (0x1A20 ≤ a ∧ raise .outOfBounds a pc0 s = .fault f) ∨ (a < 0x1A20 ∧ k (s.byteAt a) = .fault f) := by
  by_cases h : a < 0x1A20
  · simp [readByte_of_lt h, h]
  · simp [readByte_of_ge (Nat.not_lt.mp h), h, Nat.not_lt.mp h]

/-- A fault of a word read: its first byte, its second, or what follows (R56). -/
theorem readWord_fault {pc0 : Word} {a : Nat} {s : State} {k : Word → Result} {f : Fault} :
    readWord pc0 a s k = .fault f ↔
      (0x1A20 ≤ a ∧ raise .outOfBounds a pc0 s = .fault f) ∨
        (a + 1 = 0x1A20 ∧ raise .outOfBounds (a + 1) pc0 s = .fault f) ∨
          (a + 1 < 0x1A20 ∧ k (wordOfBytes (s.byteAt a) (s.byteAt (a + 1))) = .fault f) := by
  rw [readWord, readByte_fault, readByte_fault]
  constructor
  · rintro (h | ⟨h, ⟨h', h''⟩ | ⟨h', h''⟩⟩)
    · exact .inl h
    · exact .inr (.inl ⟨by omega, h''⟩)
    · exact .inr (.inr ⟨h', h''⟩)
  · rintro (h | ⟨h, h'⟩ | ⟨h, h'⟩)
    · exact .inl h
    · exact .inr ⟨by omega, .inl ⟨by omega, h'⟩⟩
    · exact .inr ⟨by omega, .inr ⟨h, h'⟩⟩

/-- No accessor refuses: a refusal of the whole comes from what follows. -/
theorem readByte_refused {pc0 : Word} {a : Nat} {s : State} {k : Byte → Result} {why : Refusal} :
    readByte pc0 a s k = .refused why ↔ a < 0x1A20 ∧ k (s.byteAt a) = .refused why := by
  by_cases h : a < 0x1A20
  · simp [readByte_of_lt h, h]
  · simp [readByte_of_ge (Nat.not_lt.mp h), h]

theorem writeByte_refused {pc0 : Word} {a : Nat} {v : Byte} {s : State} {k : State → Result} {why : Refusal} :
    writeByte pc0 a v s k = .refused why ↔ writeFault a = none ∧ k (s.setByte a v) = .refused why := by
  rw [writeByte_eq]
  cases h : writeFault a <;> simp

/-! ## The invariant in numbers -/

theorem Inv.sp_bounds {s : State} (h : Inv s) : 0x0200 ≤ s.sp.toNat ∧ s.sp.toNat ≤ 0x1A20 := ⟨h.spLow, h.spHigh⟩

theorem Inv.rom_byte {s : State} (h : Inv s) {a : Nat} (ha : a < 0x0200) : s.byteAt a = Config.fontRom a := h.rom a ha

theorem Inv.geometry_eq {s : State} (h : Inv s) : readGeometry s = (64, 32, Config.screenXScale, Config.screenYScale) :=
  h.geometry

/-! ## The fetch -/

theorem fetchWord_of_lt {s : State} (h : s.pc.toNat + 1 < 0x1A20) (k : Word → Result) :
    fetchWord s k = k s.fetchedWord := readWord_of_lt h s.pc s k

theorem fetchWord_next {s t : State} {k : Word → Result} :
    fetchWord s k = .next t ↔ s.pc.toNat + 1 < 0x1A20 ∧ k s.fetchedWord = .next t := readWord_next

theorem fetchWord_fault {s : State} {k : Word → Result} {f : Fault} :
    fetchWord s k = .fault f ↔
      (0x1A20 ≤ s.pc.toNat ∧ raise .outOfBounds s.pc.toNat s.pc s = .fault f) ∨
        (s.pc.toNat + 1 = 0x1A20 ∧ raise .outOfBounds (s.pc.toNat + 1) s.pc s = .fault f) ∨
          (s.pc.toNat + 1 < 0x1A20 ∧ k s.fetchedWord = .fault f) := readWord_fault

/-- Everything a step that answers a next state did (R80). -/
theorem step_next {s t : State} :
    step s = .next t ↔ s.fault = none ∧ s.pc.toNat + 1 < 0x1A20 ∧
      runDecoded (decodeWord s.fetchedWord) s.advance = .next t := by
  unfold step
  cases hf : s.fault with
  | some r => simp
  | none => simp [fetchWord_next]

/-- A step with no fault record and a word to fetch is what the word decodes to (R80). -/
theorem step_of_fetch {s : State} (hf : s.fault = none) (h : s.pc.toNat + 1 < 0x1A20) :
    step s = runDecoded (decodeWord s.fetchedWord) s.advance := by
  unfold step
  rw [hf]
  exact fetchWord_of_lt h _

/-! ## KEYS -/

/-- Reading KEYS never faults, and gives the big-endian word at 0x1200 (R63, R69). -/
theorem readKeys_eq (pc0 : Word) (s : State) (k : Word → Result) :
    readKeys pc0 s k = k (wordOfBytes (s.byteAt 0x1200) (s.byteAt 0x1201)) := by
  rw [readKeys, readWord_of_lt (by decide)]
  rfl

theorem keyDown_of_lt {key : Byte} (h : key.toNat < 16) (pc0 : Word) (s : State) (k : Bool → Result) :
    keyDown pc0 key s k = k ((wordOfBytes (s.byteAt 0x1200) (s.byteAt 0x1201)).getLsbD key.toNat) := by
  unfold keyDown
  rw [if_pos (by exact h), readKeys_eq]

theorem keyDown_of_ge {key : Byte} (h : 16 ≤ key.toNat) (pc0 : Word) (s : State) (k : Bool → Result) :
    keyDown pc0 key s k = raise .keyIndexOutOfRange key.toNat pc0 s := by
  unfold keyDown
  exact if_neg (Nat.not_lt.mpr h)

/-! ## Register blocks -/

/-- The registers of a block transfer: V0 to Vx (R154, R155). -/
theorem mem_regsUpTo {x j : Reg} : j ∈ regsUpTo x ↔ j ≤ x := by
  revert x j; decide

/-- The register block in ascending order, split at one of its registers. -/
theorem regsUpTo_split {x k : Reg} (h : k ≤ x) :
    ∃ front back, regsUpTo x = front ++ k :: back ∧ (∀ j ∈ front, j < k) ∧ (∀ j, j < k → j ∈ front) ∧
      ∀ j ∈ back, k < j := by
  revert h
  revert x k
  have : ∀ x k : Reg, k ≤ x → regsUpTo x = allRegs.take k.val ++ k :: (regsUpTo x).drop (k.val + 1) ∧
      (∀ j ∈ allRegs.take k.val, j < k) ∧ (∀ j, j < k → j ∈ allRegs.take k.val) ∧
      ∀ j ∈ (regsUpTo x).drop (k.val + 1), k < j := by decide
  intro x k h
  exact ⟨_, _, (this x k h).1, (this x k h).2.1, (this x k h).2.2.1, (this x k h).2.2.2⟩

/-- What a block store does to the state. -/
def State.storeRegs (base : Nat) : List Reg → State → State
  | [], s => s
  | j :: js, s => State.storeRegs base js (s.setByte (base + j.val) (s.getV j))

theorem State.storeRegs_eq (base : Nat) (js : List Reg) (s : State) :
    State.storeRegs base js s = { s with mem := (State.storeRegs base js s).mem } := by
  induction js generalizing s with
  | nil => rfl
  | cons j js ih => rw [State.storeRegs, ih]; rfl

@[simp] theorem State.storeRegs_getV (base : Nat) (js : List Reg) (s : State) (r : Reg) :
    (State.storeRegs base js s).getV r = s.getV r := by
  rw [State.storeRegs_eq]; rfl

theorem State.byteAt_storeRegs_of_mem {base : Nat} {js : List Reg} {j : Reg} (h : j ∈ js) (s : State) :
    (State.storeRegs base js s).byteAt (base + j.val) = s.getV j := by
  induction js generalizing s with
  | nil => simp at h
  | cons i js ih =>
    rw [State.storeRegs]
    by_cases hj : j ∈ js
    · rw [ih hj]; rfl
    · have hij : j = i := by simpa [hj] using h
      subst hij
      clear ih h
      have key : ∀ (js : List Reg) (s : State), j ∉ js →
          (State.storeRegs base js s).byteAt (base + j.val) = s.byteAt (base + j.val) := by
        intro js
        induction js with
        | nil => intro s _; rfl
        | cons i js ih =>
          intro s hn
          simp only [List.mem_cons, not_or] at hn
          rw [State.storeRegs, ih _ hn.2]
          apply State.byteAt_setByte_ne
          intro e
          exact hn.1 (Fin.ext (by omega))
      rw [key _ _ hj]
      simp

theorem State.byteAt_storeRegs_of_ne {base : Nat} {js : List Reg} {a : Nat} (h : ∀ j ∈ js, a ≠ base + j.val) (s : State) :
    (State.storeRegs base js s).byteAt a = s.byteAt a := by
  induction js generalizing s with
  | nil => rfl
  | cons i js ih =>
    rw [State.storeRegs, ih fun j hj => h j (by simp [hj])]
    exact State.byteAt_setByte_ne _ _ (h i (by simp))

/-- A block store whose bytes are all writable goes on with them stored (R154). -/
theorem storeBlock_of_ok {base : Nat} {js : List Reg} (h : ∀ j ∈ js, writeFault (base + j.val) = none) (pc0 : Word)
    (s : State) (k : State → Result) : storeBlock pc0 base js s k = k (State.storeRegs base js s) := by
  induction js generalizing s with
  | nil => rfl
  | cons j js ih =>
    rw [storeBlock, writeByte_of_ok (h j (by simp)), ih fun i hi => h i (by simp [hi])]
    rfl

/-- A block store stops at the first byte that cannot be written, the ones before it stored (R154, R209). -/
theorem storeBlock_of_fault {base : Nat} {front back : List Reg} {j : Reg} {code : FaultCode}
    (h : ∀ i ∈ front, writeFault (base + i.val) = none) (hj : writeFault (base + j.val) = some code) (pc0 : Word) (s : State)
    (k : State → Result) :
    storeBlock pc0 base (front ++ j :: back) s k = raise code (base + j.val) pc0 (State.storeRegs base front s) := by
  induction front generalizing s with
  | nil => exact writeByte_of_fault hj _ _ _ _
  | cons i front ih =>
    rw [List.cons_append, storeBlock, writeByte_of_ok (h i (by simp)), ih fun i hi => h i (by simp [hi])]
    rfl

theorem storeBlock_next {pc0 : Word} {base : Nat} {js : List Reg} {s t : State} {k : State → Result} :
    storeBlock pc0 base js s k = .next t ↔
      (∀ j ∈ js, writeFault (base + j.val) = none) ∧ k (State.storeRegs base js s) = .next t := by
  induction js generalizing s with
  | nil => simp [storeBlock, State.storeRegs]
  | cons j js ih => rw [storeBlock, writeByte_next, ih]; simp [State.storeRegs, and_assoc]

/-- What a block load does to the state. -/
def State.loadRegs (base : Nat) : List Reg → State → State
  | [], s => s
  | j :: js, s => State.loadRegs base js (s.setV j (s.byteAt (base + j.val)))

theorem State.loadRegs_eq (base : Nat) (js : List Reg) (s : State) :
    State.loadRegs base js s = { s with v := (State.loadRegs base js s).v } := by
  induction js generalizing s with
  | nil => rfl
  | cons j js ih => rw [State.loadRegs, ih]; rfl

@[simp] theorem State.loadRegs_byteAt (base : Nat) (js : List Reg) (s : State) (a : Nat) :
    (State.loadRegs base js s).byteAt a = s.byteAt a := by
  rw [State.loadRegs_eq]; rfl

theorem State.getV_loadRegs (base : Nat) (js : List Reg) (s : State) (r : Reg) :
    (State.loadRegs base js s).getV r = if r ∈ js then s.byteAt (base + r.val) else s.getV r := by
  induction js generalizing s with
  | nil => simp [State.loadRegs]
  | cons j js ih =>
    rw [State.loadRegs, ih]
    by_cases h1 : r ∈ js
    · simp [h1]
    · by_cases h2 : r = j
      · subst h2; simp [h1]
      · simp [h1, h2, State.getV_setV]

/-- A block load whose bytes all exist goes on with them loaded (R155). -/
theorem loadBlockRegs_of_ok {base : Nat} {js : List Reg} (h : ∀ j ∈ js, base + j.val < 0x1A20) (pc0 : Word)
    (s : State) (k : State → Result) : loadBlockRegs pc0 base js s k = k (State.loadRegs base js s) := by
  induction js generalizing s with
  | nil => rfl
  | cons j js ih =>
    rw [loadBlockRegs, readByte_of_lt (h j (by simp)), ih fun i hi => h i (by simp [hi])]
    rfl

/-- A block load stops at the first byte past memory, the registers before it loaded (R155, R209). -/
theorem loadBlockRegs_of_fault {base : Nat} {front back : List Reg} {j : Reg}
    (h : ∀ i ∈ front, base + i.val < 0x1A20) (hj : 0x1A20 ≤ base + j.val) (pc0 : Word) (s : State) (k : State → Result) :
    loadBlockRegs pc0 base (front ++ j :: back) s k =
      raise .outOfBounds (base + j.val) pc0 (State.loadRegs base front s) := by
  induction front generalizing s with
  | nil => exact readByte_of_ge hj _ _ _
  | cons i front ih =>
    rw [List.cons_append, loadBlockRegs, readByte_of_lt (h i (by simp)), ih fun i hi => h i (by simp [hi])]
    rfl

theorem loadBlockRegs_next {pc0 : Word} {base : Nat} {js : List Reg} {s t : State} {k : State → Result} :
    loadBlockRegs pc0 base js s k = .next t ↔
      (∀ j ∈ js, base + j.val < 0x1A20) ∧ k (State.loadRegs base js s) = .next t := by
  induction js generalizing s with
  | nil => simp [loadBlockRegs, State.loadRegs]
  | cons j js ih => rw [loadBlockRegs, readByte_next, ih]; simp [State.loadRegs, and_assoc]

/-- A block store that faults: at the first byte that cannot be written, the bytes before it stored, or in what follows. -/
theorem storeBlock_fault {pc0 : Word} {base : Nat} {js : List Reg} {s : State} {k : State → Result} {f : Fault}
    (h : storeBlock pc0 base js s k = .fault f) :
    (∃ front j back code, js = front ++ j :: back ∧ writeFault (base + j.val) = some code ∧
      raise code (base + j.val) pc0 (State.storeRegs base front s) = .fault f) ∨
      k (State.storeRegs base js s) = .fault f := by
  induction js generalizing s with
  | nil => exact .inr h
  | cons j js ih =>
    rw [storeBlock, writeByte_fault] at h
    rcases h with ⟨code, hc, hr⟩ | ⟨_, h⟩
    · exact .inl ⟨[], j, js, code, rfl, hc, hr⟩
    · rcases ih h with ⟨front, i, back, code, hs, hc, hr⟩ | h
      · exact .inl ⟨j :: front, i, back, code, by rw [hs]; rfl, hc, hr⟩
      · exact .inr h

/-- A block load that faults: at the first byte past memory, the registers before it loaded, or in what follows. -/
theorem loadBlockRegs_fault {pc0 : Word} {base : Nat} {js : List Reg} {s : State} {k : State → Result} {f : Fault}
    (h : loadBlockRegs pc0 base js s k = .fault f) :
    (∃ front j back, js = front ++ j :: back ∧ 0x1A20 ≤ base + j.val ∧
      raise .outOfBounds (base + j.val) pc0 (State.loadRegs base front s) = .fault f) ∨
      k (State.loadRegs base js s) = .fault f := by
  induction js generalizing s with
  | nil => exact .inr h
  | cons j js ih =>
    rw [loadBlockRegs, readByte_fault] at h
    rcases h with ⟨hc, hr⟩ | ⟨_, h⟩
    · exact .inl ⟨[], j, js, rfl, hc, hr⟩
    · rcases ih h with ⟨front, i, back, hs, hc, hr⟩ | h
      · exact .inl ⟨j :: front, i, back, by rw [hs]; rfl, hc, hr⟩
      · exact .inr h

theorem storeBlock_refused {pc0 : Word} {base : Nat} {js : List Reg} {s : State} {k : State → Result} {why : Refusal}
    (h : storeBlock pc0 base js s k = .refused why) : k (State.storeRegs base js s) = .refused why := by
  induction js generalizing s with
  | nil => exact h
  | cons j js ih => rw [storeBlock, writeByte_refused] at h; exact ih h.2

theorem loadBlockRegs_refused {pc0 : Word} {base : Nat} {js : List Reg} {s : State} {k : State → Result} {why : Refusal}
    (h : loadBlockRegs pc0 base js s k = .refused why) : k (State.loadRegs base js s) = .refused why := by
  induction js generalizing s with
  | nil => exact h
  | cons j js ih => rw [loadBlockRegs, readByte_refused] at h; exact ih h.2

theorem indexAfterBlock_toNat (i : Word) (x : Reg) : (indexAfterBlock i x).toNat = (i.toNat + x.val + 1) % 65536 := by
  simp [indexAfterBlock]; omega

/-! ## Flags and digits -/

theorem b2u_toNat (c : Bool) : (b2u c).toNat = if c then 1 else 0 := by cases c <;> rfl

theorem shrFlag_toNat : ∀ a : Byte, (b2u (shrFlag a)).toNat = a.toNat % 2 := by decide

theorem shlFlag_toNat : ∀ a : Byte, (b2u (shlFlag a)).toNat = a.toNat / 128 := by decide

theorem hundreds_toNat (v : Byte) : (hundreds v).toNat = v.toNat / 100 := by simp [hundreds]; omega

theorem tens_toNat (v : Byte) : (tens v).toNat = v.toNat / 10 % 10 := by simp [tens]; omega

theorem ones_toNat (v : Byte) : (ones v).toNat = v.toNat % 10 := by simp [ones]; omega

/-- The lowest key of a mask that is not zero is one of the sixteen, is down, and no lower one is (R173). -/
theorem lowestKey_spec {m : Word} (h : m ≠ 0) :
    lowestKey m < 16 ∧ m.getLsbD (lowestKey m) = true ∧ ∀ j, j < lowestKey m → m.getLsbD j = false := by
  unfold lowestKey
  cases hf : (List.range Config.numKeys).find? (fun k => m.getLsbD k) with
  | none =>
    refine absurd (BitVec.eq_of_getLsbD_eq fun i hi => ?_) h
    simpa using List.find?_eq_none.mp hf i (List.mem_range.mpr hi)
  | some k =>
    refine ⟨List.mem_range.mp (List.mem_of_find?_eq_some hf), List.find?_some hf, fun j hj => ?_⟩
    simp at hf
    simpa using hf.2.2 j hj

end Sys2Proof.Machine
end

