-- ==== Sys2Proof/Laws/Draw.lean ====
section
/-! SUPPORT. What the two loops of DRW do (40_screen.md R101): the effect of a row and of the rows as functions of the state, when
the loops run to their end, where they stop, and that a property kept by every pixel write is kept by the whole. -/

namespace Sys2Proof.Machine

theorem pixelIndex_eq (px py : Nat) : pixelIndex px py = py * 64 + px := rfl

/-- The statements' index of a sprite position is the one that DRW draws at (R102). -/
theorem spriteIndex_eq (s : State) (x y : Reg) (r c : Nat) :
    spriteIndex s x y r c = pixelIndex ((s.getV x).toNat + c) ((s.getV y).toNat + r) := rfl

theorem spriteApart_iff (s : State) (x y : Reg) (rows : Nat) :
    spriteApart s x y rows ↔
      ∀ r, r < rows → ∀ r', r' < r → ∀ c, c < 8 → s.i.toNat + r ≠ 0x1220 + spriteIndex s x y r' c := Iff.rfl

theorem drawnExactly_iff (s t : State) (x y : Reg) (drawn : Nat → Nat → Prop) :
    DrawnExactly s t x y drawn ↔
      (∀ r c, c < 8 → drawn r c →
        t.byteAt (0x1220 + spriteIndex s x y r c) =
          xorPixel (s.byteAt (0x1220 + spriteIndex s x y r c)) (spriteBitAt s r c)) ∧
      ∀ a, (∀ r c, c < 8 → drawn r c → a ≠ 0x1220 + spriteIndex s x y r c) → t.byteAt a = s.byteAt a := Iff.rfl

/-- Positions of one row are distinct. -/
theorem pixelIndex_inj {px py c d : Nat} (h : pixelIndex (px + c) py = pixelIndex (px + d) py) : c = d := by
  simp only [pixelIndex_eq] at h; omega

/-! ## The effect of the loops -/

/-- One pixel of R101's inner loop. -/
def State.drawPixel (px py : Nat) (b : Byte) (c : Nat) (s : State) : State :=
  s.setPixel (pixelIndex (px + c) py) (xorPixel (s.pixel (pixelIndex (px + c) py)) (spriteBit b c))

/-- The state after the columns listed. -/
def State.drawCols (px py : Nat) (b : Byte) : List Nat → State → State
  | [], s => s
  | c :: cs, s => State.drawCols px py b cs (s.drawPixel px py b c)

/-- The collision flag after the columns listed. -/
def colsCollision (px py : Nat) (b : Byte) : List Nat → State → Bool → Bool
  | [], _, collision => collision
  | c :: cs, s, collision =>
    colsCollision px py b cs (s.drawPixel px py b c)
      (collision || (spriteBit b c && s.pixel (pixelIndex (px + c) py) != 0x00))

/-- The state after the rows listed. -/
def State.drawRowList (base vx vy : Nat) : List Nat → State → State
  | [], s => s
  | r :: rs, s => State.drawRowList base vx vy rs (s.drawCols vx (vy + r) (s.byteAt (base + r)) (List.range 8))

/-- The collision flag after the rows listed. -/
def rowsCollision (base vx vy : Nat) : List Nat → State → Bool → Bool
  | [], _, collision => collision
  | r :: rs, s, collision =>
    rowsCollision base vx vy rs (s.drawCols vx (vy + r) (s.byteAt (base + r)) (List.range 8))
      (colsCollision vx (vy + r) (s.byteAt (base + r)) (List.range 8) s collision)

/-! ## One row -/

theorem drawRow_cons_of_lt {px py : Nat} {b : Byte} {c : Nat} {cs : List Nat} {s : State}
    (h : pixelIndex (px + c) py < 2048) (pc0 : Word) (collision : Bool) (k : State → Bool → Result) :
    drawRow pc0 px py b (c :: cs) s collision k =
      drawRow pc0 px py b cs (s.drawPixel px py b c)
        (collision || (spriteBit b c && s.pixel (pixelIndex (px + c) py) != 0x00)) k := if_pos h

theorem drawRow_cons_of_ge {px py : Nat} {b : Byte} {c : Nat} {cs : List Nat} {s : State}
    (h : 2048 ≤ pixelIndex (px + c) py) (pc0 : Word) (collision : Bool) (k : State → Bool → Result) :
    drawRow pc0 px py b (c :: cs) s collision k = raise .drawOutOfFramebuffer (pixelIndex (px + c) py) pc0 s :=
  if_neg (Nat.not_lt.mpr h)

/-- Columns inside the framebuffer are drawn and the row goes on. -/
theorem drawRow_append {px py : Nat} {b : Byte} {front : List Nat} (h : ∀ c ∈ front, pixelIndex (px + c) py < 2048)
    (back : List Nat) (pc0 : Word) (s : State) (collision : Bool) (k : State → Bool → Result) :
    drawRow pc0 px py b (front ++ back) s collision k =
      drawRow pc0 px py b back (s.drawCols px py b front) (colsCollision px py b front s collision) k := by
  induction front generalizing s collision with
  | nil => rfl
  | cons c cs ih =>
    rw [List.cons_append, drawRow_cons_of_lt (h c (by simp)), ih fun d hd => h d (by simp [hd])]
    rfl

/-- A row inside the framebuffer is drawn whole. -/
theorem drawRow_of_ok {px py : Nat} {b : Byte} {cs : List Nat} (h : ∀ c ∈ cs, pixelIndex (px + c) py < 2048)
    (pc0 : Word) (s : State) (collision : Bool) (k : State → Bool → Result) :
    drawRow pc0 px py b cs s collision k = k (s.drawCols px py b cs) (colsCollision px py b cs s collision) := by
  have := drawRow_append (b := b) h [] pc0 s collision k
  rwa [List.append_nil] at this

theorem State.drawPixel_byteAt (px py : Nat) (b : Byte) (c : Nat) (s : State) (a : Nat) :
    (s.drawPixel px py b c).byteAt a =
      if a = 0x1220 + pixelIndex (px + c) py then
        xorPixel (s.byteAt (0x1220 + pixelIndex (px + c) py)) (spriteBit b c) else s.byteAt a := by
  rw [State.drawPixel, State.setPixel_eq, State.byteAt_setByte]
  rfl

theorem State.drawCols_eq (px py : Nat) (b : Byte) (cs : List Nat) (s : State) :
    s.drawCols px py b cs = { s with mem := (s.drawCols px py b cs).mem } := by
  induction cs generalizing s with
  | nil => rfl
  | cons c cs ih => rw [State.drawCols, ih]; rfl

theorem State.drawCols_byteAt_of_ne {px py : Nat} {b : Byte} {cs : List Nat} {a : Nat}
    (h : ∀ c ∈ cs, a ≠ 0x1220 + pixelIndex (px + c) py) (s : State) : (s.drawCols px py b cs).byteAt a = s.byteAt a := by
  induction cs generalizing s with
  | nil => rfl
  | cons c cs ih =>
    rw [State.drawCols, ih fun d hd => h d (by simp [hd]), State.drawPixel_byteAt, if_neg (h c (by simp))]

theorem State.drawCols_byteAt_of_mem {px py : Nat} {b : Byte} {cs : List Nat} {c : Nat} (hn : cs.Nodup) (h : c ∈ cs)
    (s : State) :
    (s.drawCols px py b cs).byteAt (0x1220 + pixelIndex (px + c) py) =
      xorPixel (s.byteAt (0x1220 + pixelIndex (px + c) py)) (spriteBit b c) := by
  induction cs generalizing s with
  | nil => simp at h
  | cons d cs ih =>
    have hd := List.nodup_cons.mp hn
    rw [State.drawCols]
    rcases List.mem_cons.mp h with rfl | h
    · rw [State.drawCols_byteAt_of_ne, State.drawPixel_byteAt, if_pos rfl]
      intro e he heq
      have : c = e := pixelIndex_inj (Nat.add_left_cancel heq)
      exact hd.1 (this ▸ he)
    · rw [ih hd.2 h, State.drawPixel_byteAt, if_neg]
      intro heq
      have : c = d := pixelIndex_inj (Nat.add_left_cancel heq)
      exact hd.1 (this ▸ h)

/-- The collision flag of a row: some 1 bit on a pixel that was lit before the row (R101). -/
theorem colsCollision_eq {px py : Nat} {b : Byte} {cs : List Nat} (hn : cs.Nodup) (s : State) (collision : Bool) :
    colsCollision px py b cs s collision =
      (collision || cs.any fun c => spriteBit b c && s.byteAt (0x1220 + pixelIndex (px + c) py) != 0x00) := by
  induction cs generalizing s collision with
  | nil => simp [colsCollision]
  | cons c cs ih =>
    have hc := List.nodup_cons.mp hn
    rw [colsCollision, ih hc.2, List.any_cons, Bool.or_assoc]
    congr 2
    rw [Bool.eq_iff_iff, List.any_eq_true, List.any_eq_true]
    refine exists_congr fun d => and_congr_right fun hd => ?_
    rw [State.drawPixel_byteAt, if_neg]
    intro heq
    have : d = c := pixelIndex_inj (Nat.add_left_cancel heq)
    exact hc.1 (this ▸ hd)

/-! ## The rows -/

/-- Rows that can be read and lie inside the framebuffer are drawn and the sprite goes on. -/
theorem drawRows_append {base vx vy : Nat} {front : List Nat} (hr : ∀ r ∈ front, base + r < 0x1A20)
    (hp : ∀ r ∈ front, ∀ c, c < 8 → pixelIndex (vx + c) (vy + r) < 2048) (back : List Nat) (pc0 : Word) (s : State)
    (collision : Bool) (k : State → Bool → Result) :
    drawRows pc0 base vx vy (front ++ back) s collision k =
      drawRows pc0 base vx vy back (s.drawRowList base vx vy front) (rowsCollision base vx vy front s collision) k := by
  induction front generalizing s collision with
  | nil => rfl
  | cons r rs ih =>
    rw [List.cons_append, drawRows, readByte_of_lt (hr r (by simp)),
      drawRow_of_ok fun c hc => hp r (by simp) c (List.mem_range.mp hc),
      ih (fun q hq => hr q (by simp [hq])) fun q hq => hp q (by simp [hq])]
    rfl

/-- A sprite that can be read and lies inside the framebuffer is drawn whole. -/
theorem drawRows_of_ok {base vx vy : Nat} {rs : List Nat} (hr : ∀ r ∈ rs, base + r < 0x1A20)
    (hp : ∀ r ∈ rs, ∀ c, c < 8 → pixelIndex (vx + c) (vy + r) < 2048) (pc0 : Word) (s : State)
    (collision : Bool) (k : State → Bool → Result) :
    drawRows pc0 base vx vy rs s collision k =
      k (s.drawRowList base vx vy rs) (rowsCollision base vx vy rs s collision) := by
  have := drawRows_append hr hp [] pc0 s collision k
  rwa [List.append_nil] at this

theorem State.drawRowList_eq (base vx vy : Nat) (rs : List Nat) (s : State) :
    s.drawRowList base vx vy rs = { s with mem := (s.drawRowList base vx vy rs).mem } := by
  induction rs generalizing s with
  | nil => rfl
  | cons r rs ih => rw [State.drawRowList, ih, State.drawCols_eq]

theorem State.drawRowList_append (base vx vy : Nat) (front back : List Nat) (s : State) :
    s.drawRowList base vx vy (front ++ back) = (s.drawRowList base vx vy front).drawRowList base vx vy back := by
  induction front generalizing s with
  | nil => rfl
  | cons r rs ih => rw [List.cons_append, State.drawRowList, ih]; rfl

theorem rowsCollision_append (base vx vy : Nat) (front back : List Nat) (s : State) (collision : Bool) :
    rowsCollision base vx vy (front ++ back) s collision =
      rowsCollision base vx vy back (s.drawRowList base vx vy front) (rowsCollision base vx vy front s collision) := by
  induction front generalizing s collision with
  | nil => rfl
  | cons r rs ih => rw [List.cons_append, rowsCollision, ih]; rfl

/-! ## The rows in order, from the first -/

/-- Positions of a sprite are distinct: eight columns are fewer than a screen row (R102). -/
theorem pixelIndex_inj_of_lt {vx vy r r' c c' : Nat} (hc : c < 8) (hc' : c' < 8)
    (h : pixelIndex (vx + c) (vy + r) = pixelIndex (vx + c') (vy + r')) : r = r' ∧ c = c' := by
  simp only [pixelIndex_eq] at h; omega

theorem State.drawRowList_succ (base vx vy n : Nat) (s : State) :
    s.drawRowList base vx vy (List.range (n + 1)) =
      (s.drawRowList base vx vy (List.range n)).drawCols vx (vy + n)
        ((s.drawRowList base vx vy (List.range n)).byteAt (base + n)) (List.range 8) := by
  rw [List.range_succ, State.drawRowList_append]; rfl

theorem rowsCollision_succ (base vx vy n : Nat) (s : State) (collision : Bool) :
    rowsCollision base vx vy (List.range (n + 1)) s collision =
      colsCollision vx (vy + n) ((s.drawRowList base vx vy (List.range n)).byteAt (base + n)) (List.range 8)
        (s.drawRowList base vx vy (List.range n)) (rowsCollision base vx vy (List.range n) s collision) := by
  rw [List.range_succ, rowsCollision_append]; rfl

/-- A byte that is none of the sprite's positions stays. -/
theorem State.drawRowList_byteAt_of_ne {base vx vy n a : Nat}
    (h : ∀ r c, r < n → c < 8 → a ≠ 0x1220 + pixelIndex (vx + c) (vy + r)) (s : State) :
    (s.drawRowList base vx vy (List.range n)).byteAt a = s.byteAt a := by
  induction n with
  | zero => rfl
  | succ n ih =>
    rw [State.drawRowList_succ, State.drawCols_byteAt_of_ne fun c hc => h n c (by omega) (List.mem_range.mp hc),
      ih fun r c hr hc => h r c (by omega) hc]

/-- Where no row byte is a pixel of an earlier row, each position is exclusive-ored with its sprite bit. -/
theorem State.drawRowList_byteAt_of_drawn {base vx vy n : Nat} {s : State}
    (h : ∀ r, r < n → ∀ r', r' < r → ∀ c, c < 8 → base + r ≠ 0x1220 + pixelIndex (vx + c) (vy + r')) {r c : Nat}
    (hr : r < n) (hc : c < 8) :
    (s.drawRowList base vx vy (List.range n)).byteAt (0x1220 + pixelIndex (vx + c) (vy + r)) =
      xorPixel (s.byteAt (0x1220 + pixelIndex (vx + c) (vy + r))) (spriteBit (s.byteAt (base + r)) c) := by
  induction n with
  | zero => omega
  | succ n ih =>
    rw [State.drawRowList_succ]
    by_cases hrn : r = n
    · subst hrn
      rw [State.drawCols_byteAt_of_mem List.nodup_range (List.mem_range.mpr hc),
        State.drawRowList_byteAt_of_ne fun r' c' hr' hc' e => by
          have := pixelIndex_inj_of_lt hc hc' (Nat.add_left_cancel e); omega,
        State.drawRowList_byteAt_of_ne fun r' c' hr' hc' => h r (by omega) r' hr' c' hc']
    · rw [State.drawCols_byteAt_of_ne fun c' hc' e => by
        have := pixelIndex_inj_of_lt hc (List.mem_range.mp hc') (Nat.add_left_cancel e); omega]
      exact ih (fun r hr => h r (by omega)) (by omega)

/-! ## Properties kept by every pixel write -/

/-- A row that answers a next state: a property kept by every pixel write inside the framebuffer holds where it goes on. -/
theorem drawRow_next {P : State → Prop} (hP : ∀ s j v, j < 2048 → P s → P (s.setPixel j v)) {pc0 : Word} {px py : Nat}
    {b : Byte} {cs : List Nat} {s t : State} {collision : Bool} {k : State → Bool → Result}
    (h : drawRow pc0 px py b cs s collision k = .next t) (hs : P s) :
    ∃ s' collision', P s' ∧ k s' collision' = .next t := by
  induction cs generalizing s collision with
  | nil => exact ⟨s, collision, hs, h⟩
  | cons c cs ih =>
    by_cases hc : pixelIndex (px + c) py < 2048
    · rw [drawRow_cons_of_lt hc] at h
      exact ih h (hP _ _ _ hc hs)
    · rw [drawRow_cons_of_ge (Nat.not_lt.mp hc)] at h
      exact absurd h (raise_ne_next _ _ _ _ _)

/-- A sprite that answers a next state: as for a row. -/
theorem drawRows_next {P : State → Prop} (hP : ∀ s j v, j < 2048 → P s → P (s.setPixel j v)) {pc0 : Word}
    {base vx vy : Nat} {rs : List Nat} {s t : State} {collision : Bool} {k : State → Bool → Result}
    (h : drawRows pc0 base vx vy rs s collision k = .next t) (hs : P s) :
    ∃ s' collision', P s' ∧ k s' collision' = .next t := by
  induction rs generalizing s collision with
  | nil => exact ⟨s, collision, hs, h⟩
  | cons r rs ih =>
    rw [drawRows, readByte_next] at h
    obtain ⟨s', collision', hs', h'⟩ := drawRow_next hP h.2 hs
    exact ih h' hs'

/-- A row that faults: either a position past the framebuffer, in a state with the property, or what comes after. -/
theorem drawRow_fault {P : State → Prop} (hP : ∀ s j v, j < 2048 → P s → P (s.setPixel j v)) {pc0 : Word} {px py : Nat}
    {b : Byte} {cs : List Nat} {s : State} {f : Fault} {collision : Bool} {k : State → Bool → Result}
    (h : drawRow pc0 px py b cs s collision k = .fault f) (hs : P s) :
    (∃ s' j, P s' ∧ raise .drawOutOfFramebuffer j pc0 s' = .fault f) ∨
      ∃ s' collision', P s' ∧ k s' collision' = .fault f := by
  induction cs generalizing s collision with
  | nil => exact .inr ⟨s, collision, hs, h⟩
  | cons c cs ih =>
    by_cases hc : pixelIndex (px + c) py < 2048
    · rw [drawRow_cons_of_lt hc] at h
      exact ih h (hP _ _ _ hc hs)
    · rw [drawRow_cons_of_ge (Nat.not_lt.mp hc)] at h
      exact .inl ⟨_, _, hs, h⟩

/-- A sprite that faults: a row byte past memory, a position past the framebuffer, or what comes after. -/
theorem drawRows_fault {P : State → Prop} (hP : ∀ s j v, j < 2048 → P s → P (s.setPixel j v)) {pc0 : Word}
    {base vx vy : Nat} {rs : List Nat} {s : State} {f : Fault} {collision : Bool} {k : State → Bool → Result}
    (h : drawRows pc0 base vx vy rs s collision k = .fault f) (hs : P s) :
    (∃ s' a, P s' ∧ raise .outOfBounds a pc0 s' = .fault f) ∨
      (∃ s' j, P s' ∧ raise .drawOutOfFramebuffer j pc0 s' = .fault f) ∨
        ∃ s' collision', P s' ∧ k s' collision' = .fault f := by
  induction rs generalizing s collision with
  | nil => exact .inr (.inr ⟨s, collision, hs, h⟩)
  | cons r rs ih =>
    rw [drawRows, readByte_fault] at h
    rcases h with ⟨_, h⟩ | ⟨_, h⟩
    · exact .inl ⟨_, _, hs, h⟩
    · rcases drawRow_fault hP h hs with h | ⟨s', collision', hs', h'⟩
      · exact .inr (.inl h)
      · exact ih h' hs'

end Sys2Proof.Machine
end

