-- ==== Sys2Proof/Laws/PerInstr.lean ====
section
/-! SUPPORT. Statements made of every instruction as syntax, one lemma per constructor: its encoding is a word of its own row of the
opcode table (30_encoding.md R84). -/

namespace Sys2Proof.Laws.EncodingInRow

/-- The word of an instruction matches the row that carries its mnemonic (R84). -/
def Statement (i : Instr) : Prop :=
  ∃ row ∈ opcodeTable, row.mnemonic = mnemonicOf i ∧ row.accepts (encode i) = true

theorem accepts_addr (g : BitVec 4) (nnn : Addr12) (name : String) :
    OpcodeRow.accepts ⟨name, packAddr g 0, 0xF000⟩ (packAddr g nnn) = true := by
  simp [OpcodeRow.accepts, and_F000]

theorem accepts_regByte (g : BitVec 4) (x : Reg) (kk : Byte) (name : String) :
    OpcodeRow.accepts ⟨name, packAddr g 0, 0xF000⟩ (packRegByte g x kk) = true := by
  simp [OpcodeRow.accepts, and_F000]

theorem accepts_draw (g : BitVec 4) (x y : Reg) (n : BitVec 4) (name : String) :
    OpcodeRow.accepts ⟨name, packAddr g 0, 0xF000⟩ (packRegReg g x y n) = true := by
  simp [OpcodeRow.accepts, and_F000]

theorem accepts_regReg (g : BitVec 4) (x y : Reg) (n : BitVec 4) (name : String) :
    OpcodeRow.accepts ⟨name, packRegReg g 0 0 n, 0xF00F⟩ (packRegReg g x y n) = true := by
  simp [OpcodeRow.accepts, and_F00F]

theorem accepts_regFn (g : BitVec 4) (x : Reg) (kk : Byte) (name : String) :
    OpcodeRow.accepts ⟨name, packRegByte g 0 kk, 0xF0FF⟩ (packRegByte g x kk) = true := by
  simp [OpcodeRow.accepts, and_F0FF]

theorem cls : Statement .cls :=
  ⟨⟨"CLS", 0x00E0, 0xFFFF⟩, by decide, rfl, by decide⟩

theorem ret : Statement .ret :=
  ⟨⟨"RET", 0x00EE, 0xFFFF⟩, by decide, rfl, by decide⟩

theorem jp (nnn : Addr12) : Statement (.jp nnn) :=
  ⟨⟨"JP", 0x1000, 0xF000⟩, by decide, rfl, accepts_addr 0x1 nnn _⟩

theorem call (nnn : Addr12) : Statement (.call nnn) :=
  ⟨⟨"CALL", 0x2000, 0xF000⟩, by decide, rfl, accepts_addr 0x2 nnn _⟩

theorem seImm (x : Reg) (kk : Byte) : Statement (.seImm x kk) :=
  ⟨⟨"SE_IMM", 0x3000, 0xF000⟩, by decide, rfl, accepts_regByte 0x3 x kk _⟩

theorem sneImm (x : Reg) (kk : Byte) : Statement (.sneImm x kk) :=
  ⟨⟨"SNE_IMM", 0x4000, 0xF000⟩, by decide, rfl, accepts_regByte 0x4 x kk _⟩

theorem seReg (x y : Reg) : Statement (.seReg x y) :=
  ⟨⟨"SE_REG", 0x5000, 0xF00F⟩, by decide, rfl, accepts_regReg 0x5 x y 0x0 _⟩

theorem ldImm (x : Reg) (kk : Byte) : Statement (.ldImm x kk) :=
  ⟨⟨"LD_IMM", 0x6000, 0xF000⟩, by decide, rfl, accepts_regByte 0x6 x kk _⟩

theorem addImm (x : Reg) (kk : Byte) : Statement (.addImm x kk) :=
  ⟨⟨"ADD_IMM", 0x7000, 0xF000⟩, by decide, rfl, accepts_regByte 0x7 x kk _⟩

theorem ldReg (x y : Reg) : Statement (.ldReg x y) :=
  ⟨⟨"LD_REG", 0x8000, 0xF00F⟩, by decide, rfl, accepts_regReg 0x8 x y 0x0 _⟩

theorem orReg (x y : Reg) : Statement (.orReg x y) :=
  ⟨⟨"OR", 0x8001, 0xF00F⟩, by decide, rfl, accepts_regReg 0x8 x y 0x1 _⟩

theorem andReg (x y : Reg) : Statement (.andReg x y) :=
  ⟨⟨"AND", 0x8002, 0xF00F⟩, by decide, rfl, accepts_regReg 0x8 x y 0x2 _⟩

theorem xorReg (x y : Reg) : Statement (.xorReg x y) :=
  ⟨⟨"XOR", 0x8003, 0xF00F⟩, by decide, rfl, accepts_regReg 0x8 x y 0x3 _⟩

theorem addReg (x y : Reg) : Statement (.addReg x y) :=
  ⟨⟨"ADD_REG", 0x8004, 0xF00F⟩, by decide, rfl, accepts_regReg 0x8 x y 0x4 _⟩

theorem sub (x y : Reg) : Statement (.sub x y) :=
  ⟨⟨"SUB", 0x8005, 0xF00F⟩, by decide, rfl, accepts_regReg 0x8 x y 0x5 _⟩

theorem shr (x y : Reg) : Statement (.shr x y) :=
  ⟨⟨"SHR", 0x8006, 0xF00F⟩, by decide, rfl, accepts_regReg 0x8 x y 0x6 _⟩

theorem subn (x y : Reg) : Statement (.subn x y) :=
  ⟨⟨"SUBN", 0x8007, 0xF00F⟩, by decide, rfl, accepts_regReg 0x8 x y 0x7 _⟩

theorem shl (x y : Reg) : Statement (.shl x y) :=
  ⟨⟨"SHL", 0x800E, 0xF00F⟩, by decide, rfl, accepts_regReg 0x8 x y 0xE _⟩

theorem sneReg (x y : Reg) : Statement (.sneReg x y) :=
  ⟨⟨"SNE_REG", 0x9000, 0xF00F⟩, by decide, rfl, accepts_regReg 0x9 x y 0x0 _⟩

theorem ldIndex (nnn : Addr12) : Statement (.ldIndex nnn) :=
  ⟨⟨"LD_INDEX", 0xA000, 0xF000⟩, by decide, rfl, accepts_addr 0xA nnn _⟩

theorem jpV0 (nnn : Addr12) : Statement (.jpV0 nnn) :=
  ⟨⟨"JP_V0", 0xB000, 0xF000⟩, by decide, rfl, accepts_addr 0xB nnn _⟩

theorem rnd (x : Reg) (kk : Byte) : Statement (.rnd x kk) :=
  ⟨⟨"RND", 0xC000, 0xF000⟩, by decide, rfl, accepts_regByte 0xC x kk _⟩

theorem drw (x y : Reg) (n : Count4) : Statement (.drw x y n) :=
  ⟨⟨"DRW", 0xD000, 0xF000⟩, by decide, rfl, accepts_draw 0xD x y _ _⟩

theorem skp (x : Reg) : Statement (.skp x) :=
  ⟨⟨"SKP", 0xE09E, 0xF0FF⟩, by decide, rfl, accepts_regFn 0xE x 0x9E _⟩

theorem sknp (x : Reg) : Statement (.sknp x) :=
  ⟨⟨"SKNP", 0xE0A1, 0xF0FF⟩, by decide, rfl, accepts_regFn 0xE x 0xA1 _⟩

theorem ldVxDt (x : Reg) : Statement (.ldVxDt x) :=
  ⟨⟨"LD_VX_DT", 0xF007, 0xF0FF⟩, by decide, rfl, accepts_regFn 0xF x 0x07 _⟩

theorem ldVxK (x : Reg) : Statement (.ldVxK x) :=
  ⟨⟨"LD_VX_K", 0xF00A, 0xF0FF⟩, by decide, rfl, accepts_regFn 0xF x 0x0A _⟩

theorem ldDtVx (x : Reg) : Statement (.ldDtVx x) :=
  ⟨⟨"LD_DT_VX", 0xF015, 0xF0FF⟩, by decide, rfl, accepts_regFn 0xF x 0x15 _⟩

theorem ldStVx (x : Reg) : Statement (.ldStVx x) :=
  ⟨⟨"LD_ST_VX", 0xF018, 0xF0FF⟩, by decide, rfl, accepts_regFn 0xF x 0x18 _⟩

theorem addIndex (x : Reg) : Statement (.addIndex x) :=
  ⟨⟨"ADD_INDEX", 0xF01E, 0xF0FF⟩, by decide, rfl, accepts_regFn 0xF x 0x1E _⟩

theorem ldFont (x : Reg) : Statement (.ldFont x) :=
  ⟨⟨"LD_FONT", 0xF029, 0xF0FF⟩, by decide, rfl, accepts_regFn 0xF x 0x29 _⟩

theorem ldBcd (x : Reg) : Statement (.ldBcd x) :=
  ⟨⟨"LD_BCD", 0xF033, 0xF0FF⟩, by decide, rfl, accepts_regFn 0xF x 0x33 _⟩

theorem storeRegs (x : Reg) : Statement (.storeRegs x) :=
  ⟨⟨"STORE_REGS", 0xF055, 0xF0FF⟩, by decide, rfl, accepts_regFn 0xF x 0x55 _⟩

theorem loadRegs (x : Reg) : Statement (.loadRegs x) :=
  ⟨⟨"LOAD_REGS", 0xF065, 0xF0FF⟩, by decide, rfl, accepts_regFn 0xF x 0x65 _⟩

end Sys2Proof.Laws.EncodingInRow
end

