-- ==== Sys2Proof/Tests/Slice0.lean ====
section
/-! SUPPORT. The model's own tests: the well-formedness smoke tests, the decoding of words written out from 30_encoding.md R84, at
most two single steps per instruction with the results of 95_test_vectors.md (each theorem names its vector), the host's actions,
and for every statement with hypotheses a state and operands that meet them. -/

namespace Sys2Proof.Tests

open Sys2Proof.Machine

/-! ## Builders -/

/-- The reset state with registers set. -/
def regs (l : List (Reg × Byte)) : State := l.foldl (fun s p => s.setV p.1 p.2) State.reset

/-- A state with bytes stored, as a loader would. -/
def bytes (l : List (Nat × Byte)) (s : State) : State := l.foldl (fun s p => s.setByte p.1 p.2) s

/-- The state after one step that runs the word, none where it stops. -/
def after (w : Nat) (s : State) : Option State :=
  match step (s.withFetchWord 16 w) with
  | .next t => some t
  | _ => none

/-- The fault record and the state left by one step that runs the word, none where it does not fault. -/
def faulted (w : Nat) (s : State) : Option State :=
  match step (s.withFetchWord 16 w) with
  | .fault f => some f.left
  | _ => none

/-- The state a host action answers. -/
def answered : Result → Option State
  | .next t => some t
  | _ => none

/-! ## Well-formedness: each check refuses an ill-formed term -/

theorem test_wf_refuses_group0_row : (Decoded.nop 0x00E0).wf = false ∧ (Decoded.nop 0x00EE).wf = false := by decide
theorem test_wf_refuses_group5_row : (Decoded.nop 0x5120).wf = false := by decide
theorem test_wf_refuses_group8_row : (Decoded.nop 0x8124).wf = false ∧ (Decoded.nop 0x812E).wf = false := by decide
theorem test_wf_refuses_group9_row : (Decoded.nop 0x9120).wf = false := by decide
theorem test_wf_refuses_groupE_row : (Decoded.nop 0xE19E).wf = false ∧ (Decoded.nop 0xE1A1).wf = false := by decide
theorem test_wf_refuses_groupF_row : (Decoded.nop 0xF107).wf = false ∧ (Decoded.nop 0xF165).wf = false := by decide
theorem test_wf_refuses_full_groups : (Decoded.nop 0x1234).wf = false ∧ (Decoded.nop 0xD000).wf = false := by decide
theorem test_wf_refuses_long_image :
    imageWellFormed (List.replicate 3585 0) = false ∧ imageWellFormed (List.replicate 3584 0) = true := by
  unfold imageWellFormed; rw [List.length_replicate, List.length_replicate]; decide
theorem test_decode_refuses_one_byte :
    decode [0x00] = .error .truncated ∧ decode [] = .error .truncated := by decide

/-! ## Decoding of words written out bit by bit: group, then the digits of R84's pattern -/

theorem test_decode_screen :
    decodeWord 0b0000000011100000 = .instr .cls ∧ decodeWord 0b1101000100101111 = .instr (.drw 1 2 15) := by decide
theorem test_decode_jumps :
    decodeWord 0b0001101010111100 = .instr (.jp 0xABC) ∧ decodeWord 0b0000000011101110 = .instr .ret ∧
    decodeWord 0b0010001100000001 = .instr (.call 0x301) ∧ decodeWord 0b1011001100000000 = .instr (.jpV0 0x300) := by decide
theorem test_decode_skips :
    decodeWord 0b0011001000000101 = .instr (.seImm 2 0x05) ∧ decodeWord 0b0100001000000110 = .instr (.sneImm 2 0x06) ∧
    decodeWord 0b0101000100100000 = .instr (.seReg 1 2) ∧ decodeWord 0b1001000100100000 = .instr (.sneReg 1 2) := by decide
theorem test_decode_immediates :
    decodeWord 0b0110101001000010 = .instr (.ldImm 10 0x42) ∧ decodeWord 0b0111000111111110 = .instr (.addImm 1 0xFE) ∧
    decodeWord 0b1100001100001111 = .instr (.rnd 3 0x0F) := by decide
theorem test_decode_logic :
    decodeWord 0b1000000100110000 = .instr (.ldReg 1 3) ∧ decodeWord 0b1000000100100001 = .instr (.orReg 1 2) ∧
    decodeWord 0b1000000100100010 = .instr (.andReg 1 2) ∧ decodeWord 0b1000000100100011 = .instr (.xorReg 1 2) := by decide
theorem test_decode_arithmetic :
    decodeWord 0b1000111100010100 = .instr (.addReg 15 1) ∧ decodeWord 0b1000000111110101 = .instr (.sub 1 15) ∧
    decodeWord 0b1000010001010110 = .instr (.shr 4 5) ∧ decodeWord 0b1000000100100111 = .instr (.subn 1 2) ∧
    decodeWord 0b1000010001011110 = .instr (.shl 4 5) := by decide
theorem test_decode_keys :
    decodeWord 0b1110001110011110 = .instr (.skp 3) ∧ decodeWord 0b1110001110100001 = .instr (.sknp 3) ∧
    decodeWord 0b1111001100001010 = .instr (.ldVxK 3) := by decide
theorem test_decode_timers :
    decodeWord 0b1111010100000111 = .instr (.ldVxDt 5) ∧ decodeWord 0b1111000000010101 = .instr (.ldDtVx 0) ∧
    decodeWord 0b1111000100011000 = .instr (.ldStVx 1) := by decide
theorem test_decode_index :
    decodeWord 0b1010000100100011 = .instr (.ldIndex 0x123) ∧ decodeWord 0b1111000100011110 = .instr (.addIndex 1) ∧
    decodeWord 0b1111001000101001 = .instr (.ldFont 2) := by decide
theorem test_decode_transfers :
    decodeWord 0b1111000000110011 = .instr (.ldBcd 0) ∧ decodeWord 0b1111111101010101 = .instr (.storeRegs 15) ∧
    decodeWord 0b1111001001100101 = .instr (.loadRegs 2) := by decide

/-- N-1 to N-7: the undefined words of the six groups. -/
theorem test_decode_undefined :
    decodeWord 0x0123 = .nop 0x0123 ∧ decodeWord 0x5121 = .nop 0x5121 ∧ decodeWord 0x812F = .nop 0x812F ∧
    decodeWord 0x9121 = .nop 0x9121 ∧ decodeWord 0xE19F = .nop 0xE19F ∧ decodeWord 0xF075 = .nop 0xF075 ∧
    decodeWord 0x0000 = .nop 0x0000 := by decide

/-- X10: the high byte comes first, and the bytes after the instruction are left. -/
theorem test_decode_stream : decode [0x60, 0xFE, 0x23, 0x00] = .ok (.instr (.ldImm 0 0xFE), [0x23, 0x00]) := by decide
theorem test_encode_bytes : encodeBytes (.ldImm 0 0xFE) = [0x60, 0xFE] ∧ encodeBytes (.drw 1 2 15) = [0xD1, 0x2F] := by decide
theorem test_decodeTableWord : decodeTableWord 16 0x8124 = some (.addReg 1 2) ∧ decodeTableWord 16 0x812F = none := by decide

/-! ## Fetch -/

/-- E-1: an odd PC. -/
theorem test_fetch_odd_pc :
    (after 0x6123 { State.reset with pc := 0x201 }).map (fun t => (t.getV 1, t.pc)) = some (0x23, 0x0203) := by decide
/-- E-5: a fetch from SCREEN. -/
theorem test_fetch_screen :
    (after 0x6107 { State.reset with pc := 0x1220 }).map (fun t => (t.getV 1, t.pc)) = some (0x07, 0x1222) := by decide
/-- N-3, N-5: a no-op moves PC only. -/
theorem test_nop_advances_only :
    after 0x812F (regs [(1, 1), (2, 2), (15, 7)]) =
      some { (regs [(1, 1), (2, 2), (15, 7)]).withFetchWord 16 0x812F with pc := 0x0202 } := by decide
/-- The reset state runs what memory holds at 0x0200: 0x0000 is a no-op (N-7). -/
theorem test_step_from_reset : step State.reset = .next { State.reset with pc := 0x0202 } := rfl

/-! ## Screen -/

/-- S-1. -/
theorem test_cls :
    (after 0x00E0 (bytes [(0x1225, 1), (0x1A1F, 0xFF)] State.reset)).map
      (fun t => (t.byteAt 0x1225, t.byteAt 0x1A1F, t.pc)) = some (0, 0, 0x0202) := by decide
/-- S-8 with S-6's pixel byte 0xFF: the second pixel alone collides, and only bit 0 changes. -/
theorem test_drw_collision :
    (after 0xD011 (bytes [(0x300, 0xC0), (0x1221, 0xFF)] { State.reset with i := 0x300 })).map
      (fun t => (t.byteAt 0x1220, t.byteAt 0x1221, t.byteAt 0x1222, t.getV 15)) = some (1, 0xFE, 0, 1) := by decide
/-- S-5: the rows before the fault stay drawn and VF is not written. -/
theorem test_drw_past_framebuffer :
    (faulted 0xD012 (bytes [(0x300, 0xFF), (0x301, 0xFF)] { regs [(1, 31), (15, 7)] with i := 0x300 })).map
      (fun t => (t.byteAt 0x19E0, t.byteAt 0x19E7, t.getV 15, t.pc, t.fault)) =
      some (1, 1, 7, 0x0202, some ⟨.drawOutOfFramebuffer, some 2048, some 0x200⟩) := by decide

/-! ## Control flow -/

/-- F-1. -/
theorem test_jp : (after 0x1234 State.reset).map (fun t => t.pc) = some 0x0234 := by decide
/-- F-2. -/
theorem test_call :
    (after 0x2300 { State.reset with pc := 0x202 }).map (fun t => (t.sp, t.pc, t.byteAt 0x11FE, t.byteAt 0x11FF)) =
      some (0x11FE, 0x0300, 0x02, 0x04) := by decide
/-- F-7: SP stays decremented where the push faults. -/
theorem test_call_geometry :
    (faulted 0x2400 { State.reset with sp := 0x120A }).map (fun t => (t.sp, t.pc, t.fault)) =
      some (0x1208, 0x0202, some ⟨.geometryWrite, some 0x1208, some 0x200⟩) := by decide
/-- F-4: a pop from an empty stack reads KEYS. -/
theorem test_ret_empty_stack :
    (after 0x00EE (setKeys 0x0345 State.reset)).map (fun t => (t.sp, t.pc)) = some (0x1202, 0x0345) := by decide
/-- F-5. -/
theorem test_ret_past_memory :
    (faulted 0x00EE { State.reset with sp := 0x1A20 }).map (fun t => (t.sp, t.pc, t.fault)) =
      some (0x1A20, 0x0202, some ⟨.outOfBounds, some 0x1A20, some 0x200⟩) := by decide
/-- F-9, F-10. -/
theorem test_se_imm :
    (after 0x3205 (regs [(2, 5)])).map (fun t => t.pc) = some 0x0204 ∧
    (after 0x3205 (regs [(2, 6)])).map (fun t => t.pc) = some 0x0202 := by decide
/-- F-11, F-12. -/
theorem test_sne_imm :
    (after 0x4205 (regs [(2, 6)])).map (fun t => t.pc) = some 0x0204 ∧
    (after 0x4205 (regs [(2, 5)])).map (fun t => t.pc) = some 0x0202 := by decide
/-- F-13, F-14. -/
theorem test_se_reg :
    (after 0x5120 (regs [(1, 0x33), (2, 0x33)])).map (fun t => t.pc) = some 0x0204 ∧
    (after 0x5120 (regs [(1, 0x33), (2, 0x34)])).map (fun t => t.pc) = some 0x0202 := by decide
/-- F-15, F-16. -/
theorem test_sne_reg :
    (after 0x9120 (regs [(1, 0x33), (2, 0x34)])).map (fun t => t.pc) = some 0x0204 ∧
    (after 0x9120 (regs [(1, 0x33), (2, 0x33)])).map (fun t => t.pc) = some 0x0202 := by decide
/-- F-18: the sum is not masked. -/
theorem test_jp_v0 : (after 0xBFFF (regs [(0, 0xFF)])).map (fun t => t.pc) = some 0x10FE := by decide
/-- F-19: the x digit of the word names no register. -/
theorem test_jp_v0_ignores_x : (after 0xB300 (regs [(3, 0x10)])).map (fun t => t.pc) = some 0x0300 := by decide

/-! ## Loads and arithmetic -/

/-- A-1. -/
theorem test_ld_imm : (after 0x6A42 State.reset).map (fun t => (t.getV 10, t.pc)) = some (0x42, 0x0202) := by decide
/-- A-2: no flag. -/
theorem test_add_imm_wraps :
    (after 0x7102 (regs [(1, 0xFF), (15, 7)])).map (fun t => (t.getV 1, t.getV 15)) = some (1, 7) := by decide
/-- A-3. -/
theorem test_ld_reg :
    (after 0x8130 (regs [(3, 0x7F)])).map (fun t => (t.getV 1, t.getV 3)) = some (0x7F, 0x7F) := by decide
/-- A-4: VF stays. -/
theorem test_or :
    (after 0x8121 (regs [(1, 0xF0), (2, 0x0C), (15, 7)])).map (fun t => (t.getV 1, t.getV 15)) = some (0xFC, 7) := by decide
/-- A-5. -/
theorem test_and : (after 0x8122 (regs [(1, 0xF0), (2, 0x3C)])).map (fun t => t.getV 1) = some 0x30 := by decide
/-- A-6. -/
theorem test_xor : (after 0x8123 (regs [(1, 0xF0), (2, 0x3C)])).map (fun t => t.getV 1) = some 0xCC := by decide
/-- A-11: x = F, the sum replaces the carry. -/
theorem test_add_reg_into_vf : (after 0x8F14 (regs [(15, 0x10), (1, 0x20)])).map (fun t => t.getV 15) = some 0x30 := by decide
/-- A-12: y = F, the sum reads the old VF. -/
theorem test_add_reg_from_vf :
    (after 0x81F4 (regs [(1, 0xFF), (15, 1)])).map (fun t => (t.getV 1, t.getV 15)) = some (0, 1) := by decide
/-- A-16: the flag is strict. -/
theorem test_sub_equal :
    (after 0x8125 (regs [(1, 7), (2, 7), (15, 1)])).map (fun t => (t.getV 1, t.getV 15)) = some (0, 0) := by decide
/-- A-17: x = F, the difference reads the new flag. -/
theorem test_sub_into_vf : (after 0x8F15 (regs [(15, 5), (1, 3)])).map (fun t => t.getV 15) = some 0xFE := by decide
/-- A-30, with y = 5: Vy is not read. -/
theorem test_shr_ignores_y :
    (after 0x8456 (regs [(5, 0xFF)])).map (fun t => (t.getV 4, t.getV 15)) = some (0, 0) := by decide
/-- A-19. -/
theorem test_shr : (after 0x8406 (regs [(4, 5)])).map (fun t => (t.getV 4, t.getV 15)) = some (2, 1) := by decide
/-- A-23. -/
theorem test_subn_borrow :
    (after 0x8127 (regs [(1, 10), (2, 5)])).map (fun t => (t.getV 1, t.getV 15)) = some (0xFB, 0) := by decide
/-- A-26: y = F, the difference reads the new flag. -/
theorem test_subn_from_vf :
    (after 0x81F7 (regs [(15, 9), (1, 5)])).map (fun t => (t.getV 1, t.getV 15)) = some (0xFC, 1) := by decide
/-- A-27. -/
theorem test_shl : (after 0x840E (regs [(4, 0x81)])).map (fun t => (t.getV 4, t.getV 15)) = some (2, 1) := by decide
/-- A-29: x = F. -/
theorem test_shl_vf : (after 0x8F0E (regs [(15, 0x81)])).map (fun t => t.getV 15) = some 2 := by decide
/-- A-31 to A-33, for whatever byte the draw gives; the next draw is another. -/
theorem test_rnd :
    (after 0xC30F State.reset).map (fun t => (t.getV 3, t.draws)) = some (Config.randByte 0 &&& 0x0F, 1) := rfl

/-! ## Index register and memory transfers -/

/-- I-1. -/
theorem test_ld_index : (after 0xA123 State.reset).map (fun t => t.i) = some 0x0123 := by decide
/-- I-5: the sum is unbounded in the flag and wraps in I. -/
theorem test_add_index_wraps :
    (after 0xF11E { regs [(1, 1)] with i := 0xFFFF }).map (fun t => (t.i, t.getV 15)) = some (0x0000, 1) := by decide
/-- I-7: x = F adds the new flag. -/
theorem test_add_index_vf :
    (after 0xFF1E { regs [(15, 0x10)] with i := 0x200 }).map (fun t => (t.i, t.getV 15)) = some (0x0200, 0) := by decide
/-- I-9: Vx is not masked. -/
theorem test_ld_font : (after 0xF229 (regs [(2, 0xFF)])).map (fun t => t.i) = some 0x04FB := by decide
/-- I-10. -/
theorem test_bcd :
    (after 0xF033 { regs [(0, 254)] with i := 0x400 }).map
      (fun t => (t.byteAt 0x400, t.byteAt 0x401, t.byteAt 0x402, t.i)) = some (2, 5, 4, 0x400) := by decide
/-- I-15: the digit before the fault stays. -/
theorem test_bcd_geometry :
    (faulted 0xF033 { regs [(0, 123)] with i := 0x1203 }).map (fun t => (t.byteAt 0x1203, t.byteAt 0x1204, t.fault)) =
      some (1, 0, some ⟨.geometryWrite, some 0x1204, some 0x200⟩) := by decide
/-- I-16. -/
theorem test_store_regs :
    (after 0xF255 { regs [(0, 1), (1, 2), (2, 3), (3, 4)] with i := 0x300 }).map
      (fun t => (t.byteAt 0x300, t.byteAt 0x301, t.byteAt 0x302, t.byteAt 0x303, t.i)) =
      some (1, 2, 3, 0, 0x303) := by decide
/-- I-18: the bytes before the fault stay and I does not advance. -/
theorem test_store_regs_geometry :
    (faulted 0xF355 { regs [(0, 10), (1, 11), (2, 12), (3, 13)] with i := 0x1202 }).map
      (fun t => (t.byteAt 0x1202, t.byteAt 0x1203, t.i, t.fault)) =
      some (10, 11, 0x1202, some ⟨.geometryWrite, some 0x1204, some 0x200⟩) := by decide
/-- I-21: the registers before the fault stay and I does not advance. -/
theorem test_load_regs_past_memory :
    (faulted 0xF265 (bytes [(0x1A1E, 1), (0x1A1F, 1)] { regs [(2, 9)] with i := 0x1A1E })).map
      (fun t => (t.getV 0, t.getV 1, t.getV 2, t.i, t.fault)) =
      some (1, 1, 9, 0x1A1E, some ⟨.outOfBounds, some 0x1A20, some 0x200⟩) := by decide
/-- I-23: the geometry registers are big-endian words. -/
theorem test_load_regs_geometry :
    (after 0xF365 { State.reset with i := 0x1204 }).map (fun t => (t.getV 0, t.getV 1, t.getV 2, t.getV 3, t.i)) =
      some (0x00, 0x40, 0x00, 0x20, 0x1208) := by decide

/-! ## Keypad and timers -/

/-- K-1, K-2. -/
theorem test_skp :
    (after 0xE39E (setKeys 0x0020 (regs [(3, 5)]))).map (fun t => t.pc) = some 0x0204 ∧
    (after 0xE39E (setKeys 0x0020 (regs [(3, 4)]))).map (fun t => t.pc) = some 0x0202 := by decide
/-- K-3. -/
theorem test_skp_key_16 :
    (faulted 0xE39E (setKeys 0x0020 (regs [(3, 16)]))).map (fun t => (t.pc, t.fault)) =
      some (0x0202, some ⟨.keyIndexOutOfRange, some 16, some 0x200⟩) := by decide
/-- K-4, K-5. -/
theorem test_sknp :
    (after 0xE3A1 (regs [(3, 5)])).map (fun t => t.pc) = some 0x0204 ∧
    (after 0xE3A1 (setKeys 0x0020 (regs [(3, 5)]))).map (fun t => t.pc) = some 0x0202 := by decide
/-- K-8. -/
theorem test_ld_vx_dt : (after 0xF507 (bytes [(0x1202, 0x3C)] State.reset)).map (fun t => t.getV 5) = some 0x3C := by decide
/-- K-9: the wait falls back to its own address. -/
theorem test_wait_key_retries :
    (after 0xF30A (regs [(3, 9)])).map (fun t => (t.pc, t.getV 3)) = some (0x0200, 9) := by decide
/-- K-10: the lowest key. -/
theorem test_wait_key_lowest :
    (after 0xF30A (setKeys 0x0120 State.reset)).map (fun t => (t.pc, t.getV 3)) = some (0x0202, 5) := by decide
/-- K-12. -/
theorem test_ld_dt_vx : (after 0xF015 (regs [(0, 0x42)])).map (fun t => (t.byteAt 0x1202, t.byteAt 0x1203)) = some (0x42, 0) := by
  decide
/-- K-13. -/
theorem test_ld_st_vx : (after 0xF118 (regs [(1, 0x10)])).map (fun t => (t.byteAt 0x1202, t.byteAt 0x1203)) = some (0, 0x10) := by
  decide

/-! ## Host actions -/

/-- H-1, H-2. -/
theorem test_tick :
    (tick (bytes [(0x1202, 2)] State.reset)).byteAt 0x1202 = 1 ∧ (tick (bytes [(0x1202, 2)] State.reset)).byteAt 0x1203 = 0 ∧
    (tick (tick (bytes [(0x1203, 1)] State.reset))).byteAt 0x1203 = 0 := by decide
/-- H-3. -/
theorem test_setKeys :
    (setKeys 0x0120 State.reset).byteAt 0x1200 = 0x01 ∧ (setKeys 0x0120 State.reset).byteAt 0x1201 = 0x20 := by decide
/-- H-4: what reset sets, clears and leaves. -/
theorem test_reset :
    let t := resetAction (bytes [(0x1227, 1), (0x1202, 0x10), (0x11FC, 0xAA), (0x300, 0x55)]
      { regs [(3, 9)] with i := 0x345, pc := 0x456, sp := 0x11FC })
    t = bytes [(0x1202, 0x10), (0x11FC, 0xAA), (0x300, 0x55)] State.reset := by decide
/-- H-5. -/
theorem test_loadBlock_too_long : loadBlock 0x1A00 (List.replicate 0x21 1) State.reset = .fault (.loadOutOfBounds State.reset) := rfl
/-- H-7: the fault record is cleared. -/
theorem test_reset_after_fault :
    (faulted 0xF055 { State.reset with i := 0x100 }).map (fun t => (t.fault, (resetAction t).fault, (resetAction t).pc)) =
      some (some ⟨.readOnlyViolation, some 0x100, some 0x200⟩, none, 0x0200) := by decide
/-- R200: no step after a fault. -/
theorem test_no_step_after_fault :
    let s : State := { State.reset with fault := some ⟨.outOfBounds, some 0x1A20, some 0x1A20⟩ }
    step s = .fault (.runEnded s) := rfl
/-- X10: the image at the CODE start. -/
theorem test_boot :
    (answered (boot (some [0x60, 0xFE, 0x23, 0x00]))).map (fun t => (t.byteAt 0x200, t.byteAt 0x201, t.byteAt 0x203, t.pc)) =
      some (0x60, 0xFE, 0x00, 0x0200) := by decide
/-- R207: an unreadable image ends the boot. -/
theorem test_boot_malformed :
    boot none = .fault (.malformedInput { State.reset with fault := some ⟨.malformedInput, none, none⟩ }) := rfl
/-- R201: the numbers of the faults. -/
theorem test_fault_numbers :
    [FaultCode.outOfBounds, .readOnlyViolation, .drawOutOfFramebuffer, .keyIndexOutOfRange, .geometryWrite, .malformedInput].map
      FaultCode.number = [1, 2, 3, 4, 5, 6] := by decide

/-! ## Witnesses: for every statement with hypotheses, values that meet them together; for every clause, a boundary value -/

theorem witness_ResetActionSetsRegistersAndClearsScreen :
    (0x1220 ≤ 0x1220 ∧ 0x1220 ≤ 0x1A1F) ∧ (0x1220 ≤ 0x1A1F ∧ 0x1A1F ≤ 0x1A1F) ∧
    (0x121F < 0x1220 ∨ 0x1A20 ≤ 0x121F) ∧ (0x1A20 < 0x1220 ∨ 0x1A20 ≤ 0x1A20) := by decide

theorem witness_ResetStateHoldsSpecValues :
    0x01FF < 0x0200 ∧ (0x0200 ≤ 0x0200 ∧ (0x0200 < 0x1204 ∨ 0x1209 < 0x0200)) ∧
    (0x0200 ≤ 0x1203 ∧ (0x1203 < 0x1204 ∨ 0x1209 < 0x1203)) ∧ (0x0200 ≤ 0x120A ∧ (0x120A < 0x1204 ∨ 0x1209 < 0x120A)) := by
  decide

theorem witness_BootLoadsImageAtCodeStart_fits :
    (List.replicate 3584 (0x12 : Byte)).length ≤ 3584 ∧ 3583 < (List.replicate 3584 (0x12 : Byte)).length := by
  rw [List.length_replicate]; decide

theorem witness_BootLoadsImageAtCodeStart_empty :
    ([] : List Byte).length ≤ 3584 ∧ (0x0200 < 0x0200 ∨ 0x0200 + ([] : List Byte).length ≤ 0x0200) := by decide

theorem witness_BootLoadsImageAtCodeStart_too_long : 3584 < (List.replicate 3585 (0x12 : Byte)).length := by
  rw [List.length_replicate]; decide

theorem witness_LoadBlockCopiesOrWritesNothing_ends_memory : 0x1A1E + ([1, 2] : List Byte).length ≤ 0x1A20 := by decide

theorem witness_LoadBlockCopiesOrWritesNothing_too_long : 0x1A20 < 0x1A1F + ([1, 2] : List Byte).length := by decide

theorem witness_TickCountsBothTimersDown : 0x1201 ≠ 0x1202 ∧ 0x1201 ≠ 0x1203 ∧ 0x1204 ≠ 0x1202 ∧ 0x1204 ≠ 0x1203 := by decide

theorem witness_SetKeysWritesMaskBigEndian : 0x11FF ≠ 0x1200 ∧ 0x11FF ≠ 0x1201 ∧ 0x1202 ≠ 0x1200 ∧ 0x1202 ≠ 0x1201 := by decide

theorem witness_ReadsCheckEachByteAndAreBigEndian :
    0x1A1F < 0x1A20 ∧ 0x1A20 ≤ 0x1A20 ∧ 0x1A1E + 1 < 0x1A20 ∧ 0x1A1F = 0x1A1F := by decide

theorem witness_ByteWritesAreChecked :
    0x1A20 ≤ 0x1A20 ∧ 0x01FF ≤ 0x01FF ∧ (0x1204 ≤ 0x1204 ∧ 0x1204 ≤ 0x1209) ∧ (0x1204 ≤ 0x1209 ∧ 0x1209 ≤ 0x1209) ∧
    ((0x0200 ≤ 0x0200 ∧ 0x0200 ≤ 0x1203) ∨ (0x120A ≤ 0x0200 ∧ 0x0200 ≤ 0x1A1F)) ∧
    ((0x0200 ≤ 0x1A1F ∧ 0x1A1F ≤ 0x1203) ∨ (0x120A ≤ 0x1A1F ∧ 0x1A1F ≤ 0x1A1F)) := by decide

theorem witness_WordWriteReadsBackBigEndian :
    (writeFault 0x0200 = none ∧ writeFault (0x0200 + 1) = none) ∧ (writeFault 0x1202 = none ∧ writeFault (0x1202 + 1) = none) ∧
    (writeFault 0x1A1E = none ∧ writeFault (0x1A1E + 1) = none) := by decide

theorem witness_WordWriteChecksEachByte_first :
    writeFault 0x01FF = some .readOnlyViolation ∧ writeFault 0x1209 = some .geometryWrite ∧
    writeFault 0x1A20 = some .outOfBounds := by decide

theorem witness_WordWriteChecksEachByte_second :
    (writeFault 0x1203 = none ∧ writeFault (0x1203 + 1) = some .geometryWrite) ∧
    (writeFault 0x1A1F = none ∧ writeFault (0x1A1F + 1) = some .outOfBounds) := by decide

theorem witness_CanonicalMemoriesThatReadAlikeAreEqual :
    Memory.wf [(0x300, 5), (0x1220, 1)] ∧ Memory.wf (Memory.put (Memory.put [] 0x1220 1) 0x300 5) ∧
    ∀ a, Memory.lookup [(0x300, 5), (0x1220, 1)] a = Memory.lookup (Memory.put (Memory.put [] 0x1220 1) 0x300 5) a :=
  ⟨by decide, by decide, fun _ => rfl⟩

theorem witness_StepRunsDecodedInstruction :
    let s := State.reset.withFetchWord 16 0x8124
    s.fault = none ∧ s.pc.toNat + 1 < 0x1A20 ∧
      decodeWord (wordOfBytes (s.byteAt s.pc.toNat) (s.byteAt (s.pc.toNat + 1))) = .instr (.addReg 1 2) := by decide

theorem witness_FetchPastMemoryFaults :
    let s : State := { State.reset with pc := 0x1A1F }
    s.fault = none ∧ 0x1A1F ≤ s.pc.toNat := by decide

theorem witness_UndefinedWordsOnlyAdvance :
    let s := State.reset.withFetchWord 16 0x812F
    s.fault = none ∧ s.pc.toNat + 1 < 0x1A20 ∧
      undefinedWord (wordOfBytes (s.byteAt s.pc.toNat) (s.byteAt (s.pc.toNat + 1))) = true := by decide

theorem witness_NoTwoTableRowsMatchOneWord :
    (⟨"ADD_REG", 0x8004, 0xF00F⟩ : OpcodeRow) ∈ opcodeTable ∧
    (⟨"ADD_REG", 0x8004, 0xF00F⟩ : OpcodeRow).accepts 0x8124 = true := by decide

theorem witness_DecoderFollowsOpcodeTable :
    ((⟨"SHL", 0x800E, 0xF00F⟩ : OpcodeRow) ∈ opcodeTable ∧ (⟨"SHL", 0x800E, 0xF00F⟩ : OpcodeRow).accepts 0x8FFE = true) ∧
    ∀ row ∈ opcodeTable, row.accepts 0x8FFF = false := by decide

theorem witness_DecodeOfEncodeIsIdentity :
    (Decoded.instr (.drw 15 15 15)).wf = true ∧ (Decoded.nop 0x8FFF).wf = true := by decide

theorem witness_ClsZeroesTheFramebufferOnly :
    (0x1220 ≤ 0x1220 ∧ 0x1220 < 0x1A20) ∧ (0x1220 ≤ 0x1A1F ∧ 0x1A1F < 0x1A20) ∧ (0x121F < 0x1220 ∨ 0x1A20 ≤ 0x121F) := by
  decide

/-- A two-row sprite from CODE at the last place it fits, over a screen with one lit pixel. -/
def drawState : State :=
  bytes [(0x300, 0xC0), (0x301, 0x01), (0x19A0, 1)] { regs [(0, 0), (1, 30)] with i := 0x300 }

theorem witness_DrwDrawsSpriteAndReportsCollision :
    (∀ r, r < (2 : Count4).val → drawState.i.toNat + r < 0x1A20) ∧
    (∀ r, r < (2 : Count4).val → ∀ c, c < 8 → spriteIndex drawState 0 1 r c < 2048) ∧
    (∀ r, r < 2 → ∀ r', r' < r → ∀ c, c < 8 → drawState.i.toNat + r ≠ 0x1220 + spriteIndex drawState 0 1 r' c) ∧
    (spriteBitAt drawState 0 0 = true ∧ drawState.byteAt (0x1220 + spriteIndex drawState 0 1 0 0) ≠ 0) := by decide

theorem witness_DrwDrawsSpriteAndReportsCollision_clear :
    ∀ r, r < (2 : Count4).val → ∀ c, c < 8 → spriteBitAt (drawState.setV 1 0) r c = true →
      (drawState.setV 1 0).byteAt (0x1220 + spriteIndex (drawState.setV 1 0) 0 1 r c) = 0 := by decide

theorem witness_DrwDrawsRowByRow :
    (2 : Count4).val = (1 : Count4).val + 1 ∧ (∀ r, r < (2 : Count4).val → drawState.i.toNat + r < 0x1A20) ∧
    (∀ r, r < (2 : Count4).val → ∀ c, c < 8 → spriteIndex drawState 0 1 r c < 2048) := by decide

/-- The first position past the framebuffer: row 1, column 0 of a sprite at row 31. -/
theorem witness_DrwFaultsAtFirstBadAccess_pixel :
    let s := drawState.setV 1 31
    (1 : Count4) < 2 ∧ 0 < 8 ∧ (∀ r', r' < (1 : Count4).val → s.i.toNat + r' < 0x1A20) ∧
    (∀ r', r' < 2 → ∀ c', c' < 8 → (r' < 1 ∨ (r' = 1 ∧ c' < 0)) → spriteIndex s 0 1 r' c' < 2048) ∧
    (∀ r, r < 2 → ∀ r', r' < r → ∀ c, c < 8 → s.i.toNat + r ≠ 0x1220 + spriteIndex s 0 1 r' c) ∧
    s.i.toNat + (1 : Count4).val < 0x1A20 ∧ 2048 ≤ spriteIndex s 0 1 (1 : Count4).val 0 := by decide

/-- The same in the middle of a row, whose first four columns are inside. -/
theorem witness_DrwFaultsAtFirstBadAccess_column :
    let s := (drawState.setV 1 31).setV 0 60
    (0 : Count4) < 2 ∧ 4 < 8 ∧ (∀ c', c' < 4 → spriteIndex s 0 1 0 c' < 2048) ∧ s.i.toNat + (0 : Count4).val < 0x1A20 ∧
    2048 ≤ spriteIndex s 0 1 (0 : Count4).val 4 := by decide

/-- The same where row 0 draws over the byte of row 1: I points at the pixels of row 0. -/
theorem witness_DrwFaultsAtFirstBadAccess_drawn_over :
    let s : State := { drawState.setV 1 31 with i := 0x19E0 }
    (1 : Count4) < 2 ∧ (∀ r', r' < (1 : Count4).val → s.i.toNat + r' < 0x1A20) ∧
    (∀ r', r' < 2 → ∀ c', c' < 8 → (r' < 1 ∨ (r' = 1 ∧ c' < 0)) → spriteIndex s 0 1 r' c' < 2048) ∧
    s.i.toNat + (1 : Count4).val < 0x1A20 ∧ 2048 ≤ spriteIndex s 0 1 (1 : Count4).val 0 ∧
    s.i.toNat + 1 = 0x1220 + spriteIndex s 0 1 0 1 := by decide

/-- S-9: the row byte past memory comes before any position of its row. -/
theorem witness_DrwFaultsAtFirstBadAccess_row :
    let s : State := { regs [(0, 0), (1, 0)] with i := 0x1A1F }
    (1 : Count4) < 2 ∧ (∀ r', r' < (1 : Count4).val → s.i.toNat + r' < 0x1A20) ∧
    (∀ r', r' < 2 → ∀ c', c' < 8 → (r' < 1 ∨ (r' = 1 ∧ c' < 0)) → spriteIndex s 0 1 r' c' < 2048) ∧
    0x1A20 ≤ s.i.toNat + (1 : Count4).val := by decide

theorem witness_DrwTwiceRestoresTheScreen :
    (∀ r, r < (2 : Count4).val → drawState.i.toNat + r < 0x1A20) ∧
    (∀ r, r < (2 : Count4).val → ∀ c, c < 8 → spriteIndex drawState 0 1 r c < 2048) ∧
    (∀ r, r < (2 : Count4).val → ∀ r', r' < (2 : Count4).val → ∀ c, c < 8 →
      drawState.i.toNat + r ≠ 0x1220 + spriteIndex drawState 0 1 r' c) ∧
    (spriteBitAt drawState 0 1 = true ∧ drawState.byteAt (0x1220 + spriteIndex drawState 0 1 0 1) ≠ 1) := by decide

/-- Every 1 bit of a one-pixel sprite on a pixel byte 1: the second draw reports no collision (log 14). -/
theorem witness_DrwTwiceRestoresTheScreen_clear :
    let s := drawState.setByte 0x300 0x80
    ∀ r, r < (1 : Count4).val → ∀ c, c < 8 → spriteBitAt s r c = true → s.byteAt (0x1220 + spriteIndex s 0 1 r c) = 1 := by decide

theorem witness_CallPushesReturnAddressAndJumps :
    (writeFault ((0x1200 : Word) - 2).toNat = none ∧ writeFault (((0x1200 : Word) - 2).toNat + 1) = none) ∧
    writeFault ((0x0200 : Word) - 2).toNat = some .readOnlyViolation ∧
    writeFault ((0x120A : Word) - 2).toNat = some .geometryWrite ∧
    (writeFault ((0x1205 : Word) - 2).toNat = none ∧ writeFault (((0x1205 : Word) - 2).toNat + 1) = some .geometryWrite) := by
  decide

theorem witness_RetPopsProgramCounter :
    (0x1A1E : Word).toNat + 1 < 0x1A20 ∧ 0x1A20 ≤ (0x1A20 : Word).toNat ∧ (0x1A1F : Word).toNat = 0x1A1F := by decide

theorem witness_ReturnGoesBackToTheCaller :
    let ok := fun sp : Word => 0x0202 ≤ sp.toNat ∧ sp.toNat ≤ 0x1A20 ∧ (sp.toNat - 2 < 0x1204 ∨ 0x1209 < sp.toNat - 2) ∧
      (sp.toNat - 1 < 0x1204 ∨ 0x1209 < sp.toNat - 1)
    ok 0x0202 ∧ ok 0x1200 ∧ ok 0x1204 ∧ ok 0x120C ∧ ok 0x1A20 := by decide

theorem witness_AddRegSumsAndCarries : (1 : Reg) ≠ 15 ∧ (0 : Reg) ≠ 1 ∧ (0 : Reg) ≠ 15 := by decide

theorem witness_SubSubtractsAfterStrictFlag : (1 : Reg) ≠ 15 ∧ (0 : Reg) ≠ 1 ∧ (0 : Reg) ≠ 15 := by decide

theorem witness_SubnSubtractsAfterStrictFlag : (1 : Reg) ≠ 15 ∧ (0 : Reg) ≠ 1 ∧ (0 : Reg) ≠ 15 := by decide

theorem witness_ShiftsMoveVxByOne : (4 : Reg) ≠ 15 ∧ (0 : Reg) ≠ 4 ∧ (0 : Reg) ≠ 15 := by decide

theorem witness_RndMasksAFreshFreeByte : (0 : Reg) ≠ 3 := by decide

theorem witness_AddIndexFlagsPassing0FFF : (14 : Reg) ≠ 15 := by decide

theorem witness_BcdStoresThreeDigits :
    (∀ k, k < 3 → writeFault ((0x1A1D : Word).toNat + k) = none) ∧
    (0 < 3 ∧ writeFault ((0x01FE : Word).toNat + 0) = some .readOnlyViolation) ∧
    (2 < 3 ∧ (∀ j, j < 2 → writeFault ((0x1A1E : Word).toNat + j) = none) ∧
      writeFault ((0x1A1E : Word).toNat + 2) = some .outOfBounds) ∧
    (1 < 3 ∧ (∀ j, j < 1 → writeFault ((0x1203 : Word).toNat + j) = none) ∧
      writeFault ((0x1203 : Word).toNat + 1) = some .geometryWrite) := by decide

theorem witness_StoreRegsStoresAscendingBlock :
    (∀ j : Reg, j ≤ 15 → writeFault ((0x1A10 : Word).toNat + j.val) = none) ∧
    ((15 : Reg) ≤ 15 ∧ (∀ j : Reg, j < 15 → writeFault ((0x1A11 : Word).toNat + j.val) = none) ∧
      writeFault ((0x1A11 : Word).toNat + (15 : Reg).val) = some .outOfBounds) ∧
    ((0 : Reg) ≤ 0 ∧ (∀ j : Reg, j < 0 → writeFault ((0x0100 : Word).toNat + j.val) = none) ∧
      writeFault ((0x0100 : Word).toNat + (0 : Reg).val) = some .readOnlyViolation) := by decide

theorem witness_LoadRegsLoadsAscendingBlock :
    (0x1A10 : Word).toNat + (15 : Reg).val < 0x1A20 ∧
    ((15 : Reg) ≤ 15 ∧ (∀ j : Reg, j < 15 → (0x1A11 : Word).toNat + j.val < 0x1A20) ∧
      0x1A20 ≤ (0x1A11 : Word).toNat + (15 : Reg).val) ∧
    ((0 : Reg) ≤ 3 ∧ (∀ j : Reg, j < 0 → (0x1A20 : Word).toNat + j.val < 0x1A20) ∧
      0x1A20 ≤ (0x1A20 : Word).toNat + (0 : Reg).val) := by decide

theorem witness_KeySkipsTestOneKeyBit : ((regs [(3, 15)]).getV 3).toNat < 16 ∧ 16 ≤ ((regs [(3, 16)]).getV 3).toNat := by decide

theorem witness_TimerInstructionsMoveOneByte : 0x1203 ≠ 0x1202 ∧ 0x1202 ≠ 0x1203 := by decide

theorem witness_WaitKeyTakesLowestKeyOrRetries :
    (State.reset.byteAt 0x1200 ++ State.reset.byteAt 0x1201 : BitVec 16) = 0 ∧
    ((setKeys 0x8000 State.reset).byteAt 0x1200 ++ (setKeys 0x8000 State.reset).byteAt 0x1201 : BitVec 16) ≠ 0 := by decide

/-- A running state that lists no byte and has SP at its reset value meets the invariant. -/
theorem inv_of_empty_memory {s : State} (hm : s.mem = []) (hsp : s.sp = 0x1200) (hf : s.fault = none) : Inv s where
  memWf := by rw [hm]; decide
  spEven := by rw [hsp]; decide
  spLow := by rw [hsp]; decide
  spHigh := by rw [hsp]; decide
  rom := fun a h => by unfold State.byteAt; rw [hm]; exact if_pos h
  geometry := by unfold readGeometry State.byteAt; rw [hm]; rfl
  running := hf

theorem witness_EveryStepKeepsInvariant :
    Inv { State.reset with pc := 0x0300 } ∧
    step { State.reset with pc := 0x0300 } = .next { State.reset with pc := 0x0302 } :=
  ⟨inv_of_empty_memory rfl rfl rfl, rfl⟩

theorem witness_ReachableStatesMeetInvariant : Reachable (tick { State.reset with pc := 0x0202 }) := by
  have h0 : Reachable State.reset := .boot (image := []) rfl
  exact .move (.move h0 (.step rfl)) (.host .tick)

theorem witness_StepsNeverWriteRomOrGeometry :
    step State.reset = .next { State.reset with pc := 0x0202 } ∧
    (0x01FF < 0x0200 ∨ (0x1204 ≤ 0x01FF ∧ 0x01FF ≤ 0x1209) ∨ 0x1A20 ≤ 0x01FF) ∧
    (0x1204 < 0x0200 ∨ (0x1204 ≤ 0x1204 ∧ 0x1204 ≤ 0x1209) ∨ 0x1A20 ≤ 0x1204) ∧
    (0x1A20 < 0x0200 ∨ (0x1204 ≤ 0x1A20 ∧ 0x1A20 ≤ 0x1209) ∨ 0x1A20 ≤ 0x1A20) := ⟨rfl, by decide⟩

theorem witness_OnlyListedInstructionsWriteRegisters :
    exec (.ldImm 10 0x42) State.reset = .next (State.reset.setV 10 0x42) ∧
    (State.reset.setV 10 0x42).getV 10 ≠ State.reset.getV 10 := ⟨rfl, by decide⟩

theorem witness_OnlyListedInstructionsWriteMemory :
    exec (.ldDtVx 0) (regs [(0, 0x42)]) = .next ((regs [(0, 0x42)]).setByte 0x1202 0x42) ∧
    ((regs [(0, 0x42)]).setByte 0x1202 0x42).byteAt 0x1202 ≠ (regs [(0, 0x42)]).byteAt 0x1202 := ⟨rfl, by decide⟩

theorem witness_OnlyListedInstructionsWriteIndexAndStackPointer :
    exec (.ldIndex 0x123) State.reset = .next { State.reset with i := 0x123 } ∧ (0x123 : Word) ≠ State.reset.i ∧
    exec .ret State.reset = .next { State.reset with pc := 0, sp := 0x1202 } ∧ (0x1202 : Word) ≠ State.reset.sp :=
  ⟨rfl, by decide, rfl, by decide⟩

theorem witness_InstructionsRaiseOnlyListedFaults :
    Inv (regs [(3, 16)]) ∧
    ∃ f, exec (.skp 3) (regs [(3, 16)]) = .fault f ∧ f.code = some .keyIndexOutOfRange :=
  ⟨inv_of_empty_memory rfl rfl rfl, _, rfl, rfl⟩

theorem witness_FaultRecordNamesTheInstruction :
    (regs [(3, 16)]).fault = none ∧
    ∃ f, step ((regs [(3, 16)]).withFetchWord 16 0xE39E) = .fault f := ⟨rfl, _, rfl⟩

theorem witness_SelfJumpHaltsTheRun : isHalted (State.reset.withFetchWord 16 0x1200) :=
  ⟨rfl, by decide, 0x200, by decide, by decide⟩

theorem witness_KeyWaitLastsUntilHostSetsAKey :
    isWaiting (State.reset.withFetchWord 16 0xF30A) ∧ (0x0120 : Word) ≠ 0 ∧
    ((State.reset.withFetchWord 16 0xF30A).pc.toNat + 1 < 0x1200 ∨ 0x1201 < (State.reset.withFetchWord 16 0xF30A).pc.toNat) :=
  ⟨⟨rfl, by decide, ⟨3, by decide⟩, by decide, by decide⟩, by decide, by decide⟩

end Sys2Proof.Tests
end

/-! PROOFS. What a completed instruction leaves unchanged, said once for all instructions, and from it the statements of
10_state.md: the invariant of a step (R30, R57, R59, R200) and who writes registers, I and SP (R22, R27, R29). -/

namespace Sys2Proof.Machine

/-! ## The frame of an instruction -/

/-- `t` differs from `s` only where instruction `i` may write: registers, I and SP by the lists of R22, R27 and R29; memory stays
canonical, and a byte that no program may write (R57, R59) is as before; so is the fault record. -/
structure Frame (i : Instr) (s t : State) : Prop where
  reg : ∀ r, ¬ writesV i r → t.getV r = s.getV r
  index : ¬ writesI i → t.i = s.i
  stack : ¬ writesSP i → t.sp = s.sp
  fault : t.fault = s.fault
  memWf : s.mem.wf → t.mem.wf
  guarded : ∀ a, writeFault a ≠ none → t.byteAt a = s.byteAt a

namespace Frame

theorem refl (i : Instr) (s : State) : Frame i s s :=
  ⟨fun _ _ => rfl, fun _ => rfl, fun _ => rfl, rfl, id, fun _ _ => rfl⟩

section
variable {i : Instr} {s t : State} (f : Frame i s t)
include f

/-! Every update of the state that an instruction makes keeps its frame, a register or an address it may write given. -/

theorem setPc (p : Word) : Frame i s { t with pc := p } := { f with }

theorem setDraws (n : Nat) : Frame i s { t with draws := n } := { f with }

theorem setIndex (hi : writesI i) (w : Word) : Frame i s { t with i := w } :=
  { f with index := fun hn => absurd hi hn }

theorem setSp (hi : writesSP i) (w : Word) : Frame i s { t with sp := w } :=
  { f with stack := fun hn => absurd hi hn }

theorem setV {x : Reg} (hx : writesV i x) (b : Byte) : Frame i s (t.setV x b) :=
  { f with reg := fun r hr => (State.getV_setV_ne t b fun (e : r = x) => hr (e ▸ hx)).trans (f.reg r hr) }

theorem setByte {a : Nat} (ha : writeFault a = none) (b : Byte) : Frame i s (t.setByte a b) :=
  { f with
    memWf := fun hs => Memory.wf_put a b (f.memWf hs) (writeFault_eq_none.mp ha).2.1
    guarded := fun c hc => (State.byteAt_setByte_ne t b fun (e : c = a) => hc (e ▸ ha)).trans (f.guarded c hc) }

theorem skipIf (c : Bool) : Frame i s (t.skipIf c) := by
  cases c
  · exact f
  · exact f.setPc _

/-- A framebuffer byte is one that a program may write, so drawing a pixel needs no more than `setByte` (R61). -/
theorem setPixel {j : Nat} (hj : j < 2048) (b : Byte) : Frame i s (t.setPixel j b) := by
  have ha : writeFault (Config.screenBase + j) = none := by
    rw [writeFault_eq_none, Config.screenBase_eq]; omega
  exact f.setByte ha b

theorem clearScreen : Frame i s { t with mem := t.mem.clearScreen } := by
  refine { f with memWf := fun hs => Memory.wf_clearScreen (f.memWf hs), guarded := fun a ha => ?_ }
  have hout : Zone.screen.contains a = false := by
    rw [Zone.screen_contains, decide_eq_false_iff_not]
    exact fun h => ha (writeFault_eq_none.mpr (by omega))
  have hkept : Memory.lookup t.mem.clearScreen a = t.byteAt a := by
    rw [Memory.lookup_clearScreen, hout]; rfl
  exact hkept.trans (f.guarded a ha)

end

theorem storeRegs {i : Instr} {s t : State} (f : Frame i s t) {base : Nat} {js : List Reg}
    (hjs : ∀ j ∈ js, writeFault (base + j.val) = none) : Frame i s (State.storeRegs base js t) := by
  induction js generalizing t with
  | nil => exact f
  | cons j js ih =>
    exact ih (f.setByte (hjs j List.mem_cons_self) _) fun k hk => hjs k (List.mem_cons_of_mem _ hk)

theorem loadRegs {i : Instr} {s t : State} (f : Frame i s t) {base : Nat} {js : List Reg}
    (hjs : ∀ j ∈ js, writesV i j) : Frame i s (State.loadRegs base js t) := by
  induction js generalizing t with
  | nil => exact f
  | cons j js ih =>
    exact ih (f.setV (hjs j List.mem_cons_self) _) fun k hk => hjs k (List.mem_cons_of_mem _ hk)

end Frame

/-! ## Instructions that may stop: where they complete, they keep their frame -/

section
variable {s t : State}

theorem execRet_next (h : execRet s = .next t) :
    s.sp.toNat + 1 < 0x1A20 ∧
      t = { s with pc := wordOfBytes (s.byteAt s.sp.toNat) (s.byteAt (s.sp.toNat + 1)), sp := s.sp + 2 } := by
  obtain ⟨hsp, h⟩ := readWord_next.mp h
  cases h
  exact ⟨hsp, rfl⟩

theorem execRet_frame (h : execRet s = .next t) : Frame .ret s t := by
  obtain ⟨_, rfl⟩ := execRet_next h
  exact ((Frame.refl .ret s).setSp (.inl rfl) (s.sp + 2)).setPc _

theorem execCall_frame {nnn : Addr12} (h : execCall nnn s = .next t) : Frame (.call nnn) s t := by
  obtain ⟨hhi, hlo, h⟩ := writeWord_next.mp h
  cases h
  have hsp := (Frame.refl (.call nnn) s).setSp (.inr ⟨nnn, rfl⟩) (s.sp - 2)
  exact ((hsp.setByte hhi _).setByte hlo _).setPc _

theorem execDrw_frame {x y : Reg} {n : Count4} (h : execDrw x y n s = .next t) : Frame (.drw x y n) s t := by
  obtain ⟨u, collision, hu, h⟩ :=
    drawRows_next (P := Frame (.drw x y n) s) (fun _ _ v hj hf => hf.setPixel hj v) h (.refl _ s)
  cases h
  exact hu.setV rfl _

/-- A key test that answers a next state goes on with some answer (R176). -/
theorem keyDown_next {pc0 : Word} {key : Byte} {k : Bool → Result} (h : keyDown pc0 key s k = .next t) :
    ∃ down, k down = .next t := by
  by_cases hk : key.toNat < 16
  · rw [keyDown_of_lt hk] at h
    exact ⟨_, h⟩
  · rw [keyDown_of_ge (Nat.not_lt.mp hk)] at h
    exact absurd h (raise_ne_next _ _ _ _ _)

theorem execSkp_frame {x : Reg} (h : execSkp x s = .next t) : Frame (.skp x) s t := by
  obtain ⟨down, h⟩ := keyDown_next h
  cases h
  exact (Frame.refl _ s).skipIf _

theorem execSknp_frame {x : Reg} (h : execSknp x s = .next t) : Frame (.sknp x) s t := by
  obtain ⟨down, h⟩ := keyDown_next h
  cases h
  exact (Frame.refl _ s).skipIf _

theorem execLdVxDt_frame {x : Reg} (h : execLdVxDt x s = .next t) : Frame (.ldVxDt x) s t := by
  obtain ⟨_, h⟩ := readByte_next.mp h
  cases h
  exact (Frame.refl (.ldVxDt x) s).setV rfl _

theorem execLdVxK_frame {x : Reg} (h : execLdVxK x s = .next t) : Frame (.ldVxK x) s t := by
  rw [execLdVxK, readKeys_eq] at h
  split at h
  · cases h
    exact (Frame.refl _ s).setPc _
  · cases h
    exact (Frame.refl (.ldVxK x) s).setV rfl _

theorem execLdDtVx_frame {x : Reg} (h : execLdDtVx x s = .next t) : Frame (.ldDtVx x) s t := by
  obtain ⟨ha, h⟩ := writeByte_next.mp h
  cases h
  exact (Frame.refl _ s).setByte ha _

theorem execLdStVx_frame {x : Reg} (h : execLdStVx x s = .next t) : Frame (.ldStVx x) s t := by
  obtain ⟨ha, h⟩ := writeByte_next.mp h
  cases h
  exact (Frame.refl _ s).setByte ha _

theorem execLdBcd_frame {x : Reg} (h : execLdBcd x s = .next t) : Frame (.ldBcd x) s t := by
  obtain ⟨h0, h⟩ := writeByte_next.mp h
  obtain ⟨h1, h⟩ := writeByte_next.mp h
  obtain ⟨h2, h⟩ := writeByte_next.mp h
  cases h
  exact (((Frame.refl _ s).setByte h0 _).setByte h1 _).setByte h2 _

theorem execStoreRegs_frame {x : Reg} (h : execStoreRegs x s = .next t) : Frame (.storeRegs x) s t := by
  obtain ⟨hjs, h⟩ := storeBlock_next.mp h
  cases h
  exact ((Frame.refl _ s).storeRegs hjs).setIndex (by simp [writesI]) _

theorem execLoadRegs_frame {x : Reg} (h : execLoadRegs x s = .next t) : Frame (.loadRegs x) s t := by
  obtain ⟨_, h⟩ := loadBlockRegs_next.mp h
  cases h
  exact ((Frame.refl _ s).loadRegs fun _ => mem_regsUpTo.mp).setIndex (by simp [writesI]) _

/-- Every instruction that completes keeps its frame. -/
theorem exec_frame {i : Instr} (h : exec i s = .next t) : Frame i s t := by
  have f := Frame.refl i s
  cases i with
  | cls => cases h; exact f.clearScreen
  | ret => exact execRet_frame h
  | jp nnn => cases h; exact f.setPc _
  | call nnn => exact execCall_frame h
  | seImm x kk => cases h; exact f.skipIf _
  | sneImm x kk => cases h; exact f.skipIf _
  | seReg x y => cases h; exact f.skipIf _
  | sneReg x y => cases h; exact f.skipIf _
  | ldImm x kk => cases h; exact f.setV rfl _
  | addImm x kk => cases h; exact f.setV rfl _
  | ldReg x y => cases h; exact f.setV rfl _
  | orReg x y => cases h; exact f.setV rfl _
  | andReg x y => cases h; exact f.setV rfl _
  | xorReg x y => cases h; exact f.setV rfl _
  | addReg x y => cases h; exact (f.setV (.inr rfl) _).setV (.inl rfl) _
  | sub x y => cases h; exact (f.setV (.inr rfl) _).setV (.inl rfl) _
  | shr x y => cases h; exact (f.setV (.inr rfl) _).setV (.inl rfl) _
  | subn x y => cases h; exact (f.setV (.inr rfl) _).setV (.inl rfl) _
  | shl x y => cases h; exact (f.setV (.inr rfl) _).setV (.inl rfl) _
  | ldIndex nnn => cases h; exact f.setIndex (by simp [writesI]) _
  | jpV0 nnn => cases h; exact f.setPc _
  | rnd x kk => cases h; exact (f.setDraws _).setV rfl _
  | drw x y n => exact execDrw_frame h
  | skp x => exact execSkp_frame h
  | sknp x => exact execSknp_frame h
  | ldVxDt x => exact execLdVxDt_frame h
  | ldVxK x => exact execLdVxK_frame h
  | ldDtVx x => exact execLdDtVx_frame h
  | ldStVx x => exact execLdStVx_frame h
  | addIndex x => cases h; exact (f.setV rfl _).setIndex (by simp [writesI]) _
  | ldFont x => cases h; exact f.setIndex (by simp [writesI]) _
  | ldBcd x => exact execLdBcd_frame h
  | storeRegs x => exact execStoreRegs_frame h
  | loadRegs x => exact execLoadRegs_frame h

/-! ## The stack pointer -/

/-- What the invariant asks of SP: even, at or above CODE, at most the end of memory (R30, R112, R252). -/
def SpInRange (sp : Word) : Prop := sp.toNat % 2 = 0 ∧ 0x0200 ≤ sp.toNat ∧ sp.toNat ≤ 0x1A20

/-- A pop that completes has read below the end of memory, and SP is even, so it stops at the end at most (R111). -/
theorem execRet_spInRange (hs : SpInRange s.sp) (h : execRet s = .next t) : SpInRange t.sp := by
  obtain ⟨hsp, rfl⟩ := execRet_next h
  obtain ⟨heven, hlow, _⟩ := hs
  have hnat : (s.sp + 2).toNat = s.sp.toNat + 2 := by bv_omega
  show SpInRange (s.sp + 2)
  rw [SpInRange, hnat]
  omega

/-- A push that completes has written at the new SP, which is therefore no address in ROM (R112). -/
theorem execCall_spInRange {nnn : Addr12} (hs : SpInRange s.sp) (h : execCall nnn s = .next t) : SpInRange t.sp := by
  obtain ⟨hhi, _, h⟩ := writeWord_next.mp h
  cases h
  obtain ⟨hlow, hhigh, _⟩ := writeFault_eq_none.mp hhi
  have heven : (s.sp - 2).toNat % 2 = 0 := by
    have := hs.1
    bv_omega
  exact ⟨heven, hlow, hhigh.le⟩

theorem exec_spInRange {i : Instr} (hs : SpInRange s.sp) (h : exec i s = .next t) : SpInRange t.sp := by
  by_cases hi : writesSP i
  · rcases hi with rfl | ⟨nnn, rfl⟩
    · exact execRet_spInRange hs h
    · exact execCall_spInRange hs h
  · rw [(exec_frame h).stack hi]
    exact hs

/-! ## The invariant -/

theorem writeFault_rom {a : Nat} (h : a < 0x0200) : writeFault a ≠ none := fun hn =>
  absurd (writeFault_eq_none.mp hn).1 (by omega)

/-- The geometry registers read alike where the bytes that no program may write are alike (R59). -/
theorem readGeometry_of_guarded (h : ∀ a, writeFault a ≠ none → t.byteAt a = s.byteAt a) :
    readGeometry t = readGeometry s := by
  unfold readGeometry
  rw [h _ (by decide), h _ (by decide), h _ (by decide), h _ (by decide), h _ (by decide), h _ (by decide)]

theorem Inv.advance (h : Inv s) : Inv s.advance := { h with }

theorem exec_keeps_inv {i : Instr} (hs : Inv s) (h : exec i s = .next t) : Inv t := by
  have f := exec_frame h
  obtain ⟨heven, hlow, hhigh⟩ : SpInRange t.sp := exec_spInRange ⟨hs.spEven, hs.spLow, hs.spHigh⟩ h
  exact {
    memWf := f.memWf hs.memWf
    spEven := heven
    spLow := hlow
    spHigh := hhigh
    rom := fun a ha => (f.guarded a (writeFault_rom ha)).trans (hs.rom a ha)
    geometry := (readGeometry_of_guarded f.guarded).trans hs.geometry
    running := f.fault.trans hs.running }

theorem runDecoded_keeps_inv {d : Decoded} (hs : Inv s) (h : runDecoded d s = .next t) : Inv t := by
  cases d with
  | instr i => exact exec_keeps_inv hs h
  | nop op => cases h; exact hs

end

/-- Settles O48: fetching only advances PC, and what the word decodes to keeps the invariant by its frame. -/
theorem everyStepKeepsInvariant : Obligations.EveryStepKeepsInvariant := by
  intro s t hs h
  obtain ⟨_, _, h⟩ := step_next.mp h
  exact runDecoded_keeps_inv hs.advance h

/-- Settles O51, the register part of every instruction's frame. -/
theorem onlyListedInstructionsWriteRegisters : Obligations.OnlyListedInstructionsWriteRegisters := by
  intro i s t r h hne
  by_contra hr
  exact hne ((exec_frame h).reg r hr)

/-- Settles O53, the I, SP and fault parts of every instruction's frame. -/
theorem onlyListedInstructionsWriteIndexAndStackPointer :
    Obligations.OnlyListedInstructionsWriteIndexAndStackPointer := by
  intro i s t h
  have f := exec_frame h
  exact ⟨not_imp_comm.mp f.index, not_imp_comm.mp f.stack, f.fault⟩

end Sys2Proof.Machine

/-! PROOFS. The memory unit (20_memory.md): what its reads and writes go on with or raise (R55-R60, R70), the canonical form of
the array (R50), and the bytes that an instruction and a step leave as they were (R51, R53, R57, R59). -/

namespace Sys2Proof.Machine

/-! ## The canonical form -/

/-- The cells of a canonical memory are the addresses that read otherwise than unlisted, each with the byte it reads. -/
theorem Memory.mem_iff_lookup {m : Memory} (h : m.wf) {c : Host.Cell} :
    c ∈ m ↔ Memory.lookup m c.1 = c.2 ∧ c.2 ≠ Memory.initByte c.1 := by
  constructor
  · intro hc
    exact ⟨Memory.lookup_of_mem h hc, (h.2 c hc).2⟩
  · rintro ⟨hread, hne⟩
    have hlisted : (c.1, Memory.lookup m c.1) ∈ m := Memory.mem_of_lookup_ne (by rwa [hread])
    rwa [hread] at hlisted

/-- Settles O12: canonical memories that read alike list the same cells, and a strictly rising list is known by its members. -/
theorem canonicalMemoriesThatReadAlikeAreEqual : Obligations.CanonicalMemoriesThatReadAlikeAreEqual := by
  intro m n hm hn hread
  refine hm.1.eq_of_mem_iff hn.1 fun c => ?_
  rw [Memory.mem_iff_lookup hm, Memory.mem_iff_lookup hn, hread]

/-! ## The bulk copy -/

theorem loadBlock_of_le {addr : Nat} {data : List Byte} (h : addr + data.length ≤ 0x1A20) (s : State) :
    loadBlock addr data s = .next { s with mem := s.mem.putBytes addr data } := if_pos h

theorem loadBlock_of_gt {addr : Nat} {data : List Byte} (h : 0x1A20 < addr + data.length) (s : State) :
    loadBlock addr data s = .fault (.loadOutOfBounds s) := if_neg (Nat.not_le.mpr h)

/-- Settles O4: the copy is a run of byte stores, read back by `Memory.lookup_putBytes`. -/
theorem loadBlockCopiesOrWritesNothing : Obligations.LoadBlockCopiesOrWritesNothing := by
  intro s addr data
  refine ⟨fun hfits => ⟨_, loadBlock_of_le hfits s, rfl, fun k hk => ?_, fun a ha => ?_⟩, fun hlong => loadBlock_of_gt hlong s⟩
  · refine (Memory.lookup_putBytes data s.mem addr (addr + k)).trans ?_
    simp [hk]
  · refine (Memory.lookup_putBytes data s.mem addr a).trans (dif_neg ?_)
    omega

/-! ## Word accesses -/

/-- A word read whose first byte is past memory faults there (R56). -/
theorem readWord_of_ge {a : Nat} (h : 0x1A20 ≤ a) (pc0 : Word) (s : State) (k : Word → Result) :
    readWord pc0 a s k = raise .outOfBounds a pc0 s := readByte_of_ge h _ _ _

/-- A word read at the last byte of memory faults at its second byte (R56). -/
theorem readWord_last (pc0 : Word) (s : State) (k : Word → Result) :
    readWord pc0 0x1A1F s k = raise .outOfBounds 0x1A20 pc0 s := by
  rw [readWord, readByte_of_lt (by decide), readByte_of_ge (by decide)]

/-- Settles O8. -/
theorem readsCheckEachByteAndAreBigEndian : Obligations.ReadsCheckEachByteAndAreBigEndian := by
  intro pc0 s a kb kw
  refine ⟨fun h => readByte_of_lt h _ _ _, fun h => ⟨readByte_of_ge h _ _ _, readWord_of_ge h _ _ _⟩, fun h => ?_, ?_⟩
  · exact ⟨_, readWord_of_lt h _ _ _, wordOfBytes_toNat _ _⟩
  · rintro rfl
    exact readWord_last _ _ _

/-- Where a program may write both bytes, a word write stores them and checks nothing more (R58). -/
theorem writeWord_of_ok {a : Nat} (hhi : writeFault a = none) (hlo : writeFault (a + 1) = none) (pc0 : Word) (v : Word)
    (s : State) (k : State → Result) : writeWord pc0 a v s k = k (s.pokeWord a v) := by
  rw [writeWord, writeByte_of_ok hhi, writeByte_of_ok hlo, State.pokeWord]

/-- A word write whose first byte faults has stored nothing (R58, decision D23). -/
theorem writeWord_of_first_fault {a : Nat} {code : FaultCode} (h : writeFault a = some code) (pc0 : Word) (v : Word)
    (s : State) (k : State → Result) : writeWord pc0 a v s k = raise code a pc0 s := writeByte_of_fault h _ _ _ _

/-- A word write whose second byte faults has stored the high byte (R58, decision D23). -/
theorem writeWord_of_second_fault {a : Nat} {code : FaultCode} (hhi : writeFault a = none)
    (hlo : writeFault (a + 1) = some code) (pc0 : Word) (v : Word) (s : State) (k : State → Result) :
    writeWord pc0 a v s k = raise code (a + 1) pc0 (s.setByte a (hiByte v)) := by
  rw [writeWord, writeByte_of_ok hhi, writeByte_of_fault hlo]

theorem State.byteAt_pokeWord_hi (s : State) (a : Nat) (w : Word) : (s.pokeWord a w).byteAt a = hiByte w := by
  simp [State.byteAt_pokeWord]

theorem State.byteAt_pokeWord_lo (s : State) (a : Nat) (w : Word) : (s.pokeWord a w).byteAt (a + 1) = loByte w := by
  simp [State.byteAt_pokeWord]

theorem State.byteAt_pokeWord_ne (s : State) {a b : Nat} (w : Word) (hhi : b ≠ a) (hlo : b ≠ a + 1) :
    (s.pokeWord a w).byteAt b = s.byteAt b := by
  simp [State.byteAt_pokeWord, hhi, hlo]

/-- A word placed in memory is the word read there (R56, R70). -/
theorem readWord_pokeWord {a : Nat} (h : a + 1 < 0x1A20) (pc0 : Word) (s : State) (w : Word) (k : Word → Result) :
    readWord pc0 a (s.pokeWord a w) k = k w := by
  rw [readWord_of_lt h, State.byteAt_pokeWord_hi, State.byteAt_pokeWord_lo, wordOfBytes_hi_lo]

/-- Settles O10: the write leaves `s.pokeWord a v`, whose two bytes are the word's. -/
theorem wordWriteReadsBackBigEndian : Obligations.WordWriteReadsBackBigEndian := by
  intro pc0 s a v k k' hhi hlo
  have hin : a + 1 < 0x1A20 := (writeFault_eq_none.mp hlo).2.1
  exact ⟨s.pokeWord a v, writeWord_of_ok hhi hlo _ _ _ _, rfl, s.byteAt_pokeWord_hi a v, s.byteAt_pokeWord_lo a v,
    fun _ => s.byteAt_pokeWord_ne v, readWord_pokeWord hin _ _ _ _⟩

/-- Settles O11: the high byte is checked and stored before the low byte is looked at. -/
theorem wordWriteChecksEachByte : Obligations.WordWriteChecksEachByte := by
  intro pc0 s a v k code
  refine ⟨fun h => writeWord_of_first_fault h _ _ _ _, fun hhi hlo => ?_⟩
  exact ⟨s.setByte a (hiByte v), writeWord_of_second_fault hhi hlo _ _ _ _, rfl, s.byteAt_setByte_self a _,
    fun _ => s.byteAt_setByte_ne _⟩

/-! ## Byte writes -/

theorem writeFault_of_ge {a : Nat} (h : 0x1A20 ≤ a) : writeFault a = some .outOfBounds := by
  rw [writeFault_eq, if_pos h]

theorem writeFault_of_rom {a : Nat} (h : a < 0x0200) : writeFault a = some .readOnlyViolation := by
  rw [writeFault_eq, if_neg (by omega), if_pos h]

theorem writeFault_of_geometry {a : Nat} (h : 0x1204 ≤ a ∧ a ≤ 0x1209) : writeFault a = some .geometryWrite := by
  rw [writeFault_eq, if_neg (by omega), if_neg (by omega), if_pos h]

/-- Settles O9, by the fault of the address in each of the four ranges. -/
theorem byteWritesAreChecked : Obligations.ByteWritesAreChecked := by
  intro pc0 s a v k
  refine ⟨fun h => ?_, fun h => ?_, fun h h' => ?_, fun h => ?_⟩
  · exact writeByte_of_fault (writeFault_of_ge h) _ _ _ _
  · exact writeByte_of_fault (writeFault_of_rom (by omega)) _ _ _ _
  · exact writeByte_of_fault (writeFault_of_geometry ⟨h, h'⟩) _ _ _ _
  · have hok : writeFault a = none := writeFault_eq_none.mpr (by omega)
    exact ⟨s.setByte a v, writeByte_of_ok hok _ _ _ _, rfl, s.byteAt_setByte_self a v, fun _ => s.byteAt_setByte_ne v⟩

/-! ## The bytes that an instruction leaves as they were -/

section
variable {s t : State} {a : Nat}

@[simp] theorem State.skipIf_byteAt (s : State) (c : Bool) (a : Nat) : (s.skipIf c).byteAt a = s.byteAt a := by
  cases c <;> rfl

theorem execCls_byteAt (h : execCls s = .next t) (ha : ¬ writesByte .cls s a) : t.byteAt a = s.byteAt a := by
  cases h
  have hout : Zone.screen.contains a = false := by
    rw [Zone.screen_contains, decide_eq_false_iff_not]
    exact ha
  refine (Memory.lookup_clearScreen s.mem a).trans ?_
  rw [hout]
  rfl

theorem execCall_byteAt {nnn : Addr12} (h : execCall nnn s = .next t) (ha : ¬ writesByte (.call nnn) s a) :
    t.byteAt a = s.byteAt a := by
  obtain ⟨_, _, h⟩ := writeWord_next.mp h
  cases h
  exact State.byteAt_pokeWord_ne { s with sp := s.sp - 2 } s.pc (fun e => ha (.inl e)) (fun e => ha (.inr e))

/-- Every pixel that a sprite draws is a byte of SCREEN (R101). -/
theorem execDrw_byteAt {x y : Reg} {n : Count4} (h : execDrw x y n s = .next t) (ha : ¬ writesByte (.drw x y n) s a) :
    t.byteAt a = s.byteAt a := by
  have hpixel : ∀ (u : State) (j : Nat) (v : Byte), j < 2048 → u.byteAt a = s.byteAt a →
      (u.setPixel j v).byteAt a = s.byteAt a := by
    intro u j v hj hu
    refine (u.byteAt_setByte_ne v fun e => ha ?_).trans hu
    exact ⟨by omega, by rw [Config.screenSize_eq]; omega⟩
  obtain ⟨u, collision, hu, h⟩ := drawRows_next hpixel h rfl
  cases h
  exact hu

theorem execLdBcd_byteAt {x : Reg} (h : execLdBcd x s = .next t) (ha : ¬ writesByte (.ldBcd x) s a) :
    t.byteAt a = s.byteAt a := by
  obtain ⟨_, h⟩ := writeByte_next.mp h
  obtain ⟨_, h⟩ := writeByte_next.mp h
  obtain ⟨_, h⟩ := writeByte_next.mp h
  cases h
  have hout : a < s.i.toNat ∨ s.i.toNat + 2 < a := by
    by_contra hin
    exact ha ⟨by omega, by omega⟩
  rw [State.byteAt_setByte_ne _ _ (by omega), State.byteAt_setByte_ne _ _ (by omega),
    State.byteAt_setByte_ne _ _ (by omega)]

theorem execStoreRegs_byteAt {x : Reg} (h : execStoreRegs x s = .next t) (ha : ¬ writesByte (.storeRegs x) s a) :
    t.byteAt a = s.byteAt a := by
  obtain ⟨_, h⟩ := storeBlock_next.mp h
  cases h
  refine State.byteAt_storeRegs_of_ne (fun j hj e => ha ?_) s
  have hjx : j.val ≤ x.val := mem_regsUpTo.mp hj
  exact ⟨by omega, by omega⟩

theorem execSkp_byteAt {x : Reg} (h : execSkp x s = .next t) : t.byteAt a = s.byteAt a := by
  obtain ⟨down, h⟩ := keyDown_next h
  cases h
  exact s.skipIf_byteAt down a

theorem execSknp_byteAt {x : Reg} (h : execSknp x s = .next t) : t.byteAt a = s.byteAt a := by
  obtain ⟨down, h⟩ := keyDown_next h
  cases h
  exact s.skipIf_byteAt (!down) a

theorem execLdVxDt_byteAt {x : Reg} (h : execLdVxDt x s = .next t) : t.byteAt a = s.byteAt a := by
  obtain ⟨_, h⟩ := readByte_next.mp h
  cases h
  rfl

theorem execLdDtVx_byteAt {x : Reg} (h : execLdDtVx x s = .next t) (ha : ¬ writesByte (.ldDtVx x) s a) :
    t.byteAt a = s.byteAt a := by
  obtain ⟨_, h⟩ := writeByte_next.mp h
  cases h
  exact s.byteAt_setByte_ne _ ha

theorem execLdStVx_byteAt {x : Reg} (h : execLdStVx x s = .next t) (ha : ¬ writesByte (.ldStVx x) s a) :
    t.byteAt a = s.byteAt a := by
  obtain ⟨_, h⟩ := writeByte_next.mp h
  cases h
  exact s.byteAt_setByte_ne _ ha

theorem execLdVxK_byteAt {x : Reg} (h : execLdVxK x s = .next t) : t.byteAt a = s.byteAt a := by
  rw [execLdVxK, readKeys_eq] at h
  split at h
  · cases h
    rfl
  · cases h
    rfl

theorem execLoadRegs_byteAt {x : Reg} (h : execLoadRegs x s = .next t) : t.byteAt a = s.byteAt a := by
  obtain ⟨_, h⟩ := loadBlockRegs_next.mp h
  cases h
  exact State.loadRegs_byteAt _ _ s a

/-- An instruction that completes leaves every byte outside its write rows as it was (R53). -/
theorem exec_byteAt {i : Instr} (h : exec i s = .next t) (ha : ¬ writesByte i s a) : t.byteAt a = s.byteAt a := by
  cases i with
  | cls => exact execCls_byteAt h ha
  | ret => obtain ⟨_, rfl⟩ := execRet_next h; rfl
  | jp nnn => cases h; rfl
  | call nnn => exact execCall_byteAt h ha
  | seImm x kk => cases h; exact s.skipIf_byteAt _ a
  | sneImm x kk => cases h; exact s.skipIf_byteAt _ a
  | seReg x y => cases h; exact s.skipIf_byteAt _ a
  | sneReg x y => cases h; exact s.skipIf_byteAt _ a
  | ldImm x kk => cases h; rfl
  | addImm x kk => cases h; rfl
  | ldReg x y => cases h; rfl
  | orReg x y => cases h; rfl
  | andReg x y => cases h; rfl
  | xorReg x y => cases h; rfl
  | addReg x y => cases h; rfl
  | sub x y => cases h; rfl
  | shr x y => cases h; rfl
  | subn x y => cases h; rfl
  | shl x y => cases h; rfl
  | ldIndex nnn => cases h; rfl
  | jpV0 nnn => cases h; rfl
  | rnd x kk => cases h; rfl
  | drw x y n => exact execDrw_byteAt h ha
  | skp x => exact execSkp_byteAt h
  | sknp x => exact execSknp_byteAt h
  | ldVxDt x => exact execLdVxDt_byteAt h
  | ldVxK x => exact execLdVxK_byteAt h
  | ldDtVx x => exact execLdDtVx_byteAt h ha
  | ldStVx x => exact execLdStVx_byteAt h ha
  | addIndex x => cases h; rfl
  | ldFont x => cases h; rfl
  | ldBcd x => exact execLdBcd_byteAt h ha
  | storeRegs x => exact execStoreRegs_byteAt h ha
  | loadRegs x => exact execLoadRegs_byteAt h

end

/-- Settles O52. -/
theorem onlyListedInstructionsWriteMemory : Obligations.OnlyListedInstructionsWriteMemory := by
  intro i s t a h hne
  by_contra ha
  exact hne (exec_byteAt h ha)

/-- What a step decodes to leaves the bytes that no program may write (R57, R59). -/
theorem runDecoded_guarded {d : Decoded} {s t : State} {a : Nat} (h : runDecoded d s = .next t)
    (ha : writeFault a ≠ none) : t.byteAt a = s.byteAt a := by
  cases d with
  | instr i => exact (exec_frame h).guarded a ha
  | nop op => cases h; rfl

/-- Settles O50: the three ranges are those where a program's byte write faults, and every instruction's frame keeps them. -/
theorem stepsNeverWriteRomOrGeometry : Obligations.StepsNeverWriteRomOrGeometry := by
  intro s t h a ha
  have hguarded : writeFault a ≠ none := fun hn => by
    have := writeFault_eq_none.mp hn
    omega
  obtain ⟨_, _, h⟩ := step_next.mp h
  exact (runDecoded_guarded h hguarded).trans (s.advance_byteAt a)

end Sys2Proof.Machine

/-! PROOFS. The encoding (30_encoding.md R81-R88): decoding and encoding are inverse, and the decoder, the opcode table and the
undefined words of 45_undefined.md R191-R196 agree. -/

namespace Sys2Proof

/-! ## Decoding what was encoded -/

theorem decodeWord_encode (i : Instr) : decodeWord (encode i) = .instr i := by
  cases i
  -- the two fixed words
  case cls | ret => rfl
  -- format ADDR
  case jp | call | ldIndex | jpV0 => simp [encode, decodeWord]
  -- format REG_IMM
  case seImm | sneImm | ldImm | addImm | rnd => simp [encode, decodeWord]
  -- format DRAW: the count goes through its 4-bit field
  case drw => simp [encode, decodeWord, regField]
  -- format REG_REG
  case seReg | sneReg => simp [encode, decodeWord]
  case ldReg | orReg | andReg | xorReg | addReg | sub | shr | subn | shl => simp [encode, decodeWord, decodeGroup8]
  -- format REG_FN
  case skp | sknp => simp [encode, decodeWord, decodeGroupE]
  case ldVxDt | ldVxK | ldDtVx | ldStVx | addIndex | ldFont | ldBcd | storeRegs | loadRegs =>
    simp [encode, decodeWord, decodeGroupF]

theorem decode_encodeBytes_append (i : Instr) (rest : List Byte) :
    decode (encodeBytes i ++ rest) = .ok (.instr i, rest) := by
  simp [encodeBytes, decode, decodeWord_encode]

/-! ## The undefined words -/

/-- The undefined words by the fields of the word (R191-R196). -/
theorem undefinedWord_eq (op : Word) :
    undefinedWord op =
      if opGroup op = 0x0 then decide (op ≠ 0x00E0 ∧ op ≠ 0x00EE)
      else if opGroup op = 0x5 then decide (opN op ≠ 0x0)
      else if opGroup op = 0x8 then decide (opN op ∈ [0x8, 0x9, 0xA, 0xB, 0xC, 0xD, 0xF])
      else if opGroup op = 0x9 then decide (opN op ≠ 0x0)
      else if opGroup op = 0xE then decide (opKK op ≠ 0x9E ∧ opKK op ≠ 0xA1)
      else if opGroup op = 0xF then
        decide (opKK op ∉ [0x07, 0x0A, 0x15, 0x18, 0x1E, 0x29, 0x33, 0x55, 0x65])
      else false := by
  simp [undefinedWord, ← BitVec.toNat_inj, opGroup_toNat, opN_toNat, opKK_toNat, Nat.one_le_iff_ne_zero]

/-! ## Encoding what was decoded -/

theorem packAddr_of_group {op : Word} {g : BitVec 4} (hg : opGroup op = g) : packAddr g (opNNN op) = op :=
  hg ▸ packAddr_fields op

theorem packRegByte_of_fields {op : Word} {g : BitVec 4} {kk : Byte} (hg : opGroup op = g) (hk : opKK op = kk) :
    packRegByte g (opX op) kk = op := by
  rw [← hg, ← hk, packRegByte_fields]

theorem packRegReg_of_fields {op : Word} {g n : BitVec 4} (hg : opGroup op = g) (hn : opN op = n) :
    packRegReg g (opX op) (opY op) n = op := by
  rw [← hg, ← hn, packRegReg_fields]

/-- A decoded word that stands for a word: its encoding is that word, and it is well formed. -/
def Decoded.StandsFor (d : Decoded) (op : Word) : Prop := encodeDecoded d = op ∧ d.wf = true

theorem Decoded.instr_standsFor {i : Instr} {op : Word} (h : encode i = op) : (Decoded.instr i).StandsFor op := ⟨h, rfl⟩

theorem Decoded.nop_standsFor {op : Word} (h : undefinedWord op = true) : (Decoded.nop op).StandsFor op := ⟨rfl, h⟩

/-! Each group of the decoder answers what stands for the word. -/

theorem decodeGroup0_standsFor {op : Word} (hg : opGroup op = 0x0) : (decodeGroup0 op).StandsFor op := by
  unfold decodeGroup0
  split
  next => exact Decoded.instr_standsFor rfl
  next => exact Decoded.instr_standsFor rfl
  next hCls hRet => exact Decoded.nop_standsFor (by simpa [undefinedWord_eq, hg] using ⟨hCls, hRet⟩)

theorem decodeGroup8_standsFor {op : Word} (hg : opGroup op = 0x8) : (decodeGroup8 op).StandsFor op := by
  unfold decodeGroup8
  split
  case h_10 =>
    have hn : ∀ n : BitVec 4, n ∉ [0x0, 0x1, 0x2, 0x3, 0x4, 0x5, 0x6, 0x7, 0xE] →
        n ∈ [0x8, 0x9, 0xA, 0xB, 0xC, 0xD, 0xF] := by decide
    exact Decoded.nop_standsFor (by simpa [undefinedWord_eq, hg] using hn (opN op) (by simp_all))
  all_goals
    next hn => exact Decoded.instr_standsFor (packRegReg_of_fields hg hn)

theorem decodeGroupE_standsFor {op : Word} (hg : opGroup op = 0xE) : (decodeGroupE op).StandsFor op := by
  unfold decodeGroupE
  split
  next hk => exact Decoded.instr_standsFor (packRegByte_of_fields hg hk)
  next hk => exact Decoded.instr_standsFor (packRegByte_of_fields hg hk)
  next hSkp hSknp => exact Decoded.nop_standsFor (by simpa [undefinedWord_eq, hg] using ⟨hSkp, hSknp⟩)

theorem decodeGroupF_standsFor {op : Word} (hg : opGroup op = 0xF) : (decodeGroupF op).StandsFor op := by
  unfold decodeGroupF
  split
  case h_10 =>
    exact Decoded.nop_standsFor (by simp_all [undefinedWord_eq])
  all_goals
    next hk => exact Decoded.instr_standsFor (packRegByte_of_fields hg hk)

theorem decodeWord_standsFor (op : Word) : (decodeWord op).StandsFor op := by
  unfold decodeWord
  split
  all_goals rename_i hg
  case h_1 => exact decodeGroup0_standsFor hg
  case h_9 => exact decodeGroup8_standsFor hg
  case h_15 => exact decodeGroupE_standsFor hg
  case h_16 => exact decodeGroupF_standsFor hg
  -- groups 5 and 9 split on the low digit
  case h_6 | h_10 =>
    split
    next hn => exact Decoded.instr_standsFor (packRegReg_of_fields hg hn)
    next hn => exact Decoded.nop_standsFor (by simpa [undefinedWord_eq, hg] using hn)
  case h_14 => exact Decoded.instr_standsFor (packRegReg_of_fields hg rfl)
  case h_2 | h_3 | h_11 | h_12 => exact Decoded.instr_standsFor (packAddr_of_group hg)
  case h_4 | h_5 | h_7 | h_8 | h_13 => exact Decoded.instr_standsFor (packRegByte_of_fields hg rfl)
  -- the sixteen groups above are all there are
  case h_17 =>
    have hall : ∀ g : BitVec 4,
        g ∈ [0x0, 0x1, 0x2, 0x3, 0x4, 0x5, 0x6, 0x7, 0x8, 0x9, 0xA, 0xB, 0xC, 0xD, 0xE, 0xF] := by decide
    have hgroup := hall (opGroup op)
    simp_all

/-- Settles O20. -/
theorem encodeOfDecodeIsIdentity : Obligations.EncodeOfDecodeIsIdentity := decodeWord_standsFor

/-! ## The opcode table -/

/-- Settles O16: both patterns, cut to the bits that both masks keep, are those bits of the word; no two different rows agree on
the bits that both masks keep. -/
theorem noTwoTableRowsMatchOneWord : Obligations.NoTwoTableRowsMatchOneWord := by
  intro op p q hp hq hpop hqop
  have hdisjoint : ∀ p ∈ opcodeTable, ∀ q ∈ opcodeTable, p.pat &&& q.mask = q.pat &&& p.mask → p = q := by decide
  apply hdisjoint p hp q hq
  simp only [OpcodeRow.accepts, beq_iff_eq] at hpop hqop
  rw [← hpop, ← hqop, BitVec.and_assoc, BitVec.and_assoc, BitVec.and_comm p.mask]

open Laws.EncodingInRow in
/-- The word of every instruction is a word of the row with its mnemonic (R84). -/
theorem encode_in_row : ∀ i : Instr, ∃ row ∈ opcodeTable, row.mnemonic = mnemonicOf i ∧ row.accepts (encode i) = true := by
  intro i
  cases i with
  | cls => exact cls
  | ret => exact ret
  | jp nnn => exact jp nnn
  | call nnn => exact call nnn
  | seImm x kk => exact seImm x kk
  | sneImm x kk => exact sneImm x kk
  | seReg x y => exact seReg x y
  | ldImm x kk => exact ldImm x kk
  | addImm x kk => exact addImm x kk
  | ldReg x y => exact ldReg x y
  | orReg x y => exact orReg x y
  | andReg x y => exact andReg x y
  | xorReg x y => exact xorReg x y
  | addReg x y => exact addReg x y
  | sub x y => exact sub x y
  | shr x y => exact shr x y
  | subn x y => exact subn x y
  | shl x y => exact shl x y
  | sneReg x y => exact sneReg x y
  | ldIndex nnn => exact ldIndex nnn
  | jpV0 nnn => exact jpV0 nnn
  | rnd x kk => exact rnd x kk
  | drw x y n => exact drw x y n
  | skp x => exact skp x
  | sknp x => exact sknp x
  | ldVxDt x => exact ldVxDt x
  | ldVxK x => exact ldVxK x
  | ldDtVx x => exact ldDtVx x
  | ldStVx x => exact ldStVx x
  | addIndex x => exact addIndex x
  | ldFont x => exact ldFont x
  | ldBcd x => exact ldBcd x
  | storeRegs x => exact storeRegs x
  | loadRegs x => exact loadRegs x

/-- The formats of the table's rows (R82): which bits a row fixes, by the group of its pattern. -/
theorem opcodeTable_formats : ∀ row ∈ opcodeTable,
    row.mask = 0xFFFF#16 ∨
      (row.mask = 0xF000#16 ∧ opGroup row.pat ∉ [0x0#4, 0x5#4, 0x8#4, 0x9#4, 0xE#4, 0xF#4]) ∨
        (row.mask = 0xF00F#16 ∧ opGroup row.pat ∈ [0x5#4, 0x8#4, 0x9#4]) ∨
          (row.mask = 0xF0FF#16 ∧ opGroup row.pat ∈ [0xE#4, 0xF#4]) := by decide

/-- A word's row fixes all the bits that tell whether the word is undefined. -/
theorem undefinedWord_pat_of_accepts {row : OpcodeRow} {op : Word} (hrow : row ∈ opcodeTable) (h : row.accepts op = true) :
    undefinedWord row.pat = undefinedWord op := by
  simp only [OpcodeRow.accepts, beq_iff_eq] at h
  rcases opcodeTable_formats row hrow with hm | ⟨hm, hg⟩ | ⟨hm, hg⟩ | ⟨hm, hg⟩
  · rw [← h, hm]
    exact congrArg undefinedWord BitVec.and_allOnes
  · rw [hm, and_F000] at h
    rw [← h] at hg ⊢
    simp only [opGroup_packAddr, List.mem_cons, List.not_mem_nil, or_false, not_or] at hg
    simp [undefinedWord_eq, hg]
  · rw [hm, and_F00F] at h
    rw [← h] at hg ⊢
    simp only [opGroup_packRegReg, List.mem_cons, List.not_mem_nil, or_false] at hg
    rcases hg with hg | hg | hg <;> simp [undefinedWord_eq, hg]
  · rw [hm, and_F0FF] at h
    rw [← h] at hg ⊢
    simp only [opGroup_packRegByte, List.mem_cons, List.not_mem_nil, or_false] at hg
    rcases hg with hg | hg <;> simp [undefinedWord_eq, hg]

theorem undefinedWord_of_accepts {row : OpcodeRow} {op : Word} (hrow : row ∈ opcodeTable) (h : row.accepts op = true) :
    undefinedWord op = false := by
  have hpat : ∀ row ∈ opcodeTable, undefinedWord row.pat = false := by decide
  rw [← undefinedWord_pat_of_accepts hrow h, hpat row hrow]

/-- A decoded instruction's word is a word of the row with the instruction's mnemonic (R85). -/
theorem exists_row_of_decodeWord_instr {op : Word} {i : Instr} (h : decodeWord op = .instr i) :
    ∃ row ∈ opcodeTable, row.mnemonic = mnemonicOf i ∧ row.accepts op = true := by
  obtain ⟨henc, _⟩ := decodeWord_standsFor op
  rw [h] at henc
  exact henc ▸ encode_in_row i

/-- A decoded no-op is that of the word itself, which is undefined (R190). -/
theorem undefinedWord_of_decodeWord_nop {op op' : Word} (h : decodeWord op = .nop op') :
    op' = op ∧ undefinedWord op = true := by
  obtain ⟨henc, hwf⟩ := decodeWord_standsFor op
  rw [h] at henc hwf
  exact ⟨henc, henc ▸ hwf⟩

theorem decodeWord_of_no_row {op : Word} (h : ∀ row ∈ opcodeTable, row.accepts op = false) : decodeWord op = .nop op := by
  cases hd : decodeWord op with
  | instr i =>
    obtain ⟨row, hrow, _, hop⟩ := exists_row_of_decodeWord_instr hd
    exact absurd hop (by simp [h row hrow])
  | nop op' => rw [(undefinedWord_of_decodeWord_nop hd).1]

/-- Settles O18. -/
theorem undefinedWordsAreThoseNoRowMatches : Obligations.UndefinedWordsAreThoseNoRowMatches := by
  intro op
  constructor
  · intro hu row hrow
    by_contra hop
    have hdef := undefinedWord_of_accepts hrow (Bool.eq_true_of_not_eq_false hop)
    exact absurd hu (by simp [hdef])
  · intro h
    exact (undefinedWord_of_decodeWord_nop (decodeWord_of_no_row h)).2

/-- Settles O17: the row that matches is that of the decoded instruction, since no other matches its word. -/
theorem decoderFollowsOpcodeTable : Obligations.DecoderFollowsOpcodeTable := by
  refine fun op => ⟨fun row hrow hop => ?_, decodeWord_of_no_row⟩
  cases hd : decodeWord op with
  | instr i =>
    obtain ⟨row', hrow', hname, hop'⟩ := exists_row_of_decodeWord_instr hd
    have hrows := noTwoTableRowsMatchOneWord op row' row hrow' hrow hop' hop
    exact ⟨i, rfl, by rw [← hrows, hname]⟩
  | nop op' =>
    obtain ⟨_, hu⟩ := undefinedWord_of_decodeWord_nop hd
    exact absurd hu (by simp [undefinedWord_of_accepts hrow hop])

theorem decodeWord_of_undefinedWord {op : Word} (h : undefinedWord op = true) : decodeWord op = .nop op :=
  decodeWord_of_no_row ((undefinedWordsAreThoseNoRowMatches op).mp h)

/-- Settles O19. -/
theorem decodeOfEncodeIsIdentity : Obligations.DecodeOfEncodeIsIdentity := by
  refine ⟨fun d hwf => ?_, decode_encodeBytes_append⟩
  cases d with
  | instr i => exact decodeWord_encode i
  | nop op => exact decodeWord_of_undefinedWord hwf

/-- Settles O21: the nine words are the encodings of their instructions, the last an undefined word. -/
theorem writtenOutWordsDecode : Obligations.WrittenOutWordsDecode :=
  ⟨decodeWord_encode .cls, decodeWord_encode .ret, decodeWord_encode (.call 0xABC), decodeWord_encode (.addImm 10 0x42),
    decodeWord_encode (.sub 1 2), decodeWord_encode (.drw 1 2 15), decodeWord_encode (.skp 3),
    decodeWord_encode (.loadRegs 2), decodeWord_of_undefinedWord (by decide)⟩

end Sys2Proof

/-! PROOFS. The step around the decoder (30_encoding.md R80, R86, R88): what it fetches and runs, and that nothing in it answers a
refusal. -/

namespace Sys2Proof.Machine

/-! ## The fetch -/

/-- Settles O13. -/
theorem stepRunsDecodedInstruction : Obligations.StepRunsDecodedInstruction := by
  intro s i hf hpc hd
  rw [step_of_fetch hf hpc]
  exact congrArg (runDecoded · s.advance) hd

theorem fetchWord_of_ge {s : State} (h : 0x1A1F ≤ s.pc.toNat) (k : Word → Result) :
    fetchWord s k = raise .outOfBounds (max s.pc.toNat 0x1A20) s.pc s := by
  rcases Nat.lt_or_eq_of_le h with h | h
  · rw [Nat.max_eq_left h]
    exact readWord_of_ge h s.pc s k
  · rw [fetchWord, ← h]
    exact readWord_last s.pc s k

/-- Settles O14. -/
theorem fetchPastMemoryFaults : Obligations.FetchPastMemoryFaults := by
  intro s hf hpc
  unfold step
  rw [hf]
  exact fetchWord_of_ge hpc _

/-! ## No refusal -/

section
variable {pc0 : Word} {s : State} {why : Refusal}

theorem readWord_refused {a : Nat} {k : Word → Result} (h : readWord pc0 a s k = .refused why) :
    k (wordOfBytes (s.byteAt a) (s.byteAt (a + 1))) = .refused why :=
  (readByte_refused.mp (readByte_refused.mp h).2).2

theorem writeWord_refused {a : Nat} {v : Word} {k : State → Result} (h : writeWord pc0 a v s k = .refused why) :
    k ((s.setByte a (hiByte v)).setByte (a + 1) (loByte v)) = .refused why :=
  (writeByte_refused.mp (writeByte_refused.mp h).2).2

theorem keyDown_refused {key : Byte} {k : Bool → Result} (h : keyDown pc0 key s k = .refused why) :
    ∃ down, k down = .refused why := by
  by_cases hkey : key.toNat < 16
  · rw [keyDown_of_lt hkey] at h
    exact ⟨_, h⟩
  · rw [keyDown_of_ge (Nat.not_lt.mp hkey)] at h
    exact (raise_ne_refused _ _ _ _ _ h).elim

theorem drawRow_refused {px py : Nat} {b : Byte} {cs : List Nat} {collision : Bool} {k : State → Bool → Result}
    (h : drawRow pc0 px py b cs s collision k = .refused why) : ∃ s' collision', k s' collision' = .refused why := by
  induction cs generalizing s collision with
  | nil => exact ⟨s, collision, h⟩
  | cons c cs ih =>
    by_cases hc : pixelIndex (px + c) py < 2048
    · rw [drawRow_cons_of_lt hc] at h
      exact ih h
    · rw [drawRow_cons_of_ge (Nat.not_lt.mp hc)] at h
      exact (raise_ne_refused _ _ _ _ _ h).elim

theorem drawRows_refused {base vx vy : Nat} {rs : List Nat} {collision : Bool} {k : State → Bool → Result}
    (h : drawRows pc0 base vx vy rs s collision k = .refused why) : ∃ s' collision', k s' collision' = .refused why := by
  induction rs generalizing s collision with
  | nil => exact ⟨s, collision, h⟩
  | cons r rs ih =>
    rw [drawRows, readByte_refused] at h
    obtain ⟨s', collision', h⟩ := drawRow_refused h.2
    exact ih h

theorem execRet_ne_refused : execRet s ≠ .refused why := fun h => nomatch readWord_refused h

theorem execCall_ne_refused {nnn : Addr12} : execCall nnn s ≠ .refused why := fun h => nomatch writeWord_refused h

theorem execDrw_ne_refused {x y : Reg} {n : Count4} : execDrw x y n s ≠ .refused why := fun h => by
  obtain ⟨_, _, h⟩ := drawRows_refused h
  cases h

theorem execSkp_ne_refused {x : Reg} : execSkp x s ≠ .refused why := fun h => by
  obtain ⟨_, h⟩ := keyDown_refused h
  cases h

theorem execSknp_ne_refused {x : Reg} : execSknp x s ≠ .refused why := fun h => by
  obtain ⟨_, h⟩ := keyDown_refused h
  cases h

theorem execLdVxDt_ne_refused {x : Reg} : execLdVxDt x s ≠ .refused why := fun h => nomatch (readByte_refused.mp h).2

theorem execLdVxK_ne_refused {x : Reg} : execLdVxK x s ≠ .refused why := by
  rw [execLdVxK, readKeys_eq]
  split <;> nofun

theorem execLdDtVx_ne_refused {x : Reg} : execLdDtVx x s ≠ .refused why := fun h => nomatch (writeByte_refused.mp h).2

theorem execLdStVx_ne_refused {x : Reg} : execLdStVx x s ≠ .refused why := fun h => nomatch (writeByte_refused.mp h).2

theorem execLdBcd_ne_refused {x : Reg} : execLdBcd x s ≠ .refused why := fun h => by
  obtain ⟨_, h⟩ := writeByte_refused.mp h
  obtain ⟨_, h⟩ := writeByte_refused.mp h
  obtain ⟨_, h⟩ := writeByte_refused.mp h
  cases h

theorem execStoreRegs_ne_refused {x : Reg} : execStoreRegs x s ≠ .refused why := fun h => nomatch storeBlock_refused h

theorem execLoadRegs_ne_refused {x : Reg} : execLoadRegs x s ≠ .refused why := fun h => nomatch loadBlockRegs_refused h

theorem exec_ne_refused (i : Instr) : exec i s ≠ .refused why := by
  cases i
  -- the instructions that access memory or test a key
  case ret => exact execRet_ne_refused
  case call => exact execCall_ne_refused
  case drw => exact execDrw_ne_refused
  case skp => exact execSkp_ne_refused
  case sknp => exact execSknp_ne_refused
  case ldVxDt => exact execLdVxDt_ne_refused
  case ldVxK => exact execLdVxK_ne_refused
  case ldDtVx => exact execLdDtVx_ne_refused
  case ldStVx => exact execLdStVx_ne_refused
  case ldBcd => exact execLdBcd_ne_refused
  case storeRegs => exact execStoreRegs_ne_refused
  case loadRegs => exact execLoadRegs_ne_refused
  -- the others complete from every state
  all_goals nofun

theorem runDecoded_ne_refused (d : Decoded) : runDecoded d s ≠ .refused why := by
  cases d with
  | instr i => exact exec_ne_refused i
  | nop op => nofun

end

/-- Settles O55. -/
theorem noStepIsRefused : Obligations.NoStepIsRefused := by
  intro s why h
  unfold step at h
  split at h
  · cases h
  · exact runDecoded_ne_refused _ (readWord_refused h)

end Sys2Proof.Machine

/-! PROOFS. The screen instructions (40_screen.md R100-R102): the clearing of the framebuffer, and the sprite that DRW draws: whole,
row by row, up to the first access that fails, and twice. -/

namespace Sys2Proof.Machine

/-! ## The sprite of a state, in rows -/

/-- What the first n rows of a sprite leave of the state (R101). -/
def State.drawSprite (s : State) (x y : Reg) (n : Nat) : State :=
  s.drawRowList s.i.toNat (s.getV x).toNat (s.getV y).toNat (List.range n)

/-- The collision flag after the first n rows of a sprite (R101). -/
def spriteCollision (s : State) (x y : Reg) (n : Nat) : Bool :=
  rowsCollision s.i.toNat (s.getV x).toNat (s.getV y).toNat (List.range n) s false

/-- The first c columns of row r of the sprite of `s`, drawn over `u` from the row byte that `u` holds (R101). -/
def State.drawSpriteCols (s : State) (x y : Reg) (r c : Nat) (u : State) : State :=
  u.drawCols (s.getV x).toNat ((s.getV y).toNat + r) (u.byteAt (s.i.toNat + r)) (List.range c)

/-- The collision flag of row r of the sprite of `s`, drawn over `u` (R101). -/
def spriteRowCollision (s : State) (x y : Reg) (r : Nat) (u : State) : Bool :=
  colsCollision (s.getV x).toNat ((s.getV y).toNat + r) (u.byteAt (s.i.toNat + r)) (List.range 8) u false

section
variable {s u : State} {x y : Reg} {n r c : Nat}

theorem State.drawSprite_eq (s : State) (x y : Reg) (n : Nat) :
    s.drawSprite x y n = { s with mem := (s.drawSprite x y n).mem } := State.drawRowList_eq _ _ _ _ s

theorem State.drawSprite_succ (s : State) (x y : Reg) (n : Nat) :
    s.drawSprite x y (n + 1) = s.drawSpriteCols x y n 8 (s.drawSprite x y n) := State.drawRowList_succ _ _ _ n s

theorem spriteCollision_succ (s : State) (x y : Reg) (n : Nat) :
    spriteCollision s x y (n + 1) = (spriteCollision s x y n || spriteRowCollision s x y n (s.drawSprite x y n)) := by
  rw [spriteRowCollision, colsCollision_eq List.nodup_range, Bool.false_or]
  exact (rowsCollision_succ _ _ _ n s false).trans (colsCollision_eq List.nodup_range _ _)

/-- A row's collision is some 1 bit on a byte other than 0 (R101). -/
theorem spriteRowCollision_iff :
    spriteRowCollision s x y r u = true ↔
      ∃ c < 8, (u.byteAt (s.i.toNat + r)).getLsbD (7 - c) = true ∧ u.byteAt (0x1220 + spriteIndex s x y r c) ≠ 0 := by
  rw [spriteRowCollision, colsCollision_eq List.nodup_range]
  simp [spriteBit, spriteIndex_eq]

/-- DRW where it can read every row byte and draw every position (R101). -/
theorem exec_drw_of_ok {n : Count4} (hr : ∀ r, r < n.val → s.i.toNat + r < 0x1A20)
    (hp : ∀ r c, r < n.val → c < 8 → spriteIndex s x y r c < 2048) :
    exec (.drw x y n) s = .next ((s.drawSprite x y n.val).setV regVF (b2u (spriteCollision s x y n.val))) :=
  drawRows_of_ok (fun r h => hr r (List.mem_range.mp h)) (fun r h c => hp r c (List.mem_range.mp h)) _ _ _ _

/-! ## What is drawn -/

/-- Positions of a sprite are distinct (R102). -/
theorem spriteIndex_inj {r' c' : Nat} (hc : c < 8) (hc' : c' < 8) (h : spriteIndex s x y r c = spriteIndex s x y r' c') :
    r = r' ∧ c = c' := pixelIndex_inj_of_lt hc hc' h

theorem State.drawSpriteCols_byteAt_of_lt {c' : Nat} (h : c' < c) :
    (s.drawSpriteCols x y r c u).byteAt (0x1220 + spriteIndex s x y r c') =
      xorPixel (u.byteAt (0x1220 + spriteIndex s x y r c')) (spriteBit (u.byteAt (s.i.toNat + r)) c') :=
  State.drawCols_byteAt_of_mem List.nodup_range (List.mem_range.mpr h) u

theorem State.drawSpriteCols_byteAt_of_ne {a : Nat} (h : ∀ c', c' < c → a ≠ 0x1220 + spriteIndex s x y r c') :
    (s.drawSpriteCols x y r c u).byteAt a = u.byteAt a :=
  State.drawCols_byteAt_of_ne (fun c' hc' => h c' (List.mem_range.mp hc')) u

/-- A byte that is none of the sprite's positions stays. -/
theorem State.drawSprite_byteAt_of_ne {a : Nat} (h : ∀ r c, r < n → c < 8 → a ≠ 0x1220 + spriteIndex s x y r c) :
    (s.drawSprite x y n).byteAt a = s.byteAt a := State.drawRowList_byteAt_of_ne h s

/-- The positions of a row are as before the sprite when its turn comes (R102). -/
theorem State.drawSprite_byteAt_rowPixel (hc : c < 8) :
    (s.drawSprite x y n).byteAt (0x1220 + spriteIndex s x y n c) = s.byteAt (0x1220 + spriteIndex s x y n c) :=
  State.drawSprite_byteAt_of_ne fun r c' hr hc' e => by
    have := spriteIndex_inj hc hc' (Nat.add_left_cancel e)
    omega

/-- So is the row's byte, where no row byte is drawn over. -/
theorem State.drawSprite_byteAt_rowByte (hapart : spriteApart s x y (n + 1)) :
    (s.drawSprite x y n).byteAt (s.i.toNat + n) = s.byteAt (s.i.toNat + n) :=
  State.drawSprite_byteAt_of_ne fun r c hr hc => hapart n (Nat.lt_succ_self n) r hr c hc

theorem spriteApart_of_succ (h : spriteApart s x y (n + 1)) : spriteApart s x y n :=
  fun r hr => h r (Nat.lt_succ_of_lt hr)

theorem drawnExactly_drawSprite (hapart : spriteApart s x y n) :
    DrawnExactly s (s.drawSprite x y n) x y (fun r _ => r < n) :=
  ⟨fun _ _ hc hr => State.drawRowList_byteAt_of_drawn hapart hr hc,
    fun _ ha => State.drawSprite_byteAt_of_ne fun r c hr hc => ha r c hc hr⟩

/-- The collision flag is some 1 bit on a byte that was not 0 before the sprite (R101). -/
theorem spriteCollision_iff (hapart : spriteApart s x y n) :
    spriteCollision s x y n = true ↔
      ∃ r < n, ∃ c < 8, spriteBitAt s r c = true ∧ s.byteAt (0x1220 + spriteIndex s x y r c) ≠ 0 := by
  induction n with
  | zero => simp [spriteCollision, rowsCollision]
  | succ n ih =>
    have hrow : spriteRowCollision s x y n (s.drawSprite x y n) = true ↔
        ∃ c < 8, spriteBitAt s n c = true ∧ s.byteAt (0x1220 + spriteIndex s x y n c) ≠ 0 := by
      rw [spriteRowCollision_iff, State.drawSprite_byteAt_rowByte hapart]
      refine exists_congr fun c => and_congr_right fun hc => ?_
      rw [State.drawSprite_byteAt_rowPixel hc]
      rfl
    rw [spriteCollision_succ, Bool.or_eq_true, ih (spriteApart_of_succ hapart), hrow,
      Nat.exists_lt_succ_right (n := n)]

/-! ## Row by row -/

theorem State.byteAt_congr {t : State} (h : t.mem = u.mem) (a : Nat) : t.byteAt a = u.byteAt a :=
  congrArg (Memory.lookup · a) h

/-- A row is drawn alike over states with the same memory. -/
theorem State.drawCols_mem_congr {px py : Nat} {b : Byte} {cs : List Nat} {t : State} (h : t.mem = u.mem) :
    (t.drawCols px py b cs).mem = (u.drawCols px py b cs).mem := by
  induction cs generalizing t u with
  | nil => exact h
  | cons c cs ih =>
    refine ih ?_
    simp [State.drawPixel, State.setPixel_eq, State.pixel_eq, State.byteAt_congr h, h]

/-- I, V[x'] and V[y'] of `t` place the first row of a sprite where row r of the sprite of `s` stands. -/
structure NamesRow (s : State) (x y : Reg) (r : Nat) (t : State) (x' y' : Reg) : Prop where
  index : t.i.toNat = s.i.toNat + r
  column : t.getV x' = s.getV x
  row : (t.getV y').toNat = (s.getV y).toNat + r

variable {t : State} {x' y' : Reg}

theorem NamesRow.sameIndex (h : NamesRow s x y r t x' y') (c : Nat) :
    spriteIndex t x' y' 0 c = spriteIndex s x y r c := by
  rw [spriteIndex_eq, spriteIndex_eq, h.column, h.row, Nat.add_zero]

theorem NamesRow.drawSprite_mem (h : NamesRow s x y r t x' y') (hm : t.mem = u.mem) :
    (t.drawSprite x' y' 1).mem = (s.drawSpriteCols x y r 8 u).mem := by
  have hone : t.drawSprite x' y' 1 = t.drawSpriteCols x' y' 0 8 t := t.drawSprite_succ x' y' 0
  rw [hone, State.drawSpriteCols, State.drawSpriteCols, h.index, h.column, h.row, Nat.add_zero, Nat.add_zero,
    State.byteAt_congr hm]
  exact State.drawCols_mem_congr hm

theorem NamesRow.sameCollision (h : NamesRow s x y r t x' y') (hm : t.mem = u.mem) :
    spriteCollision t x' y' 1 = spriteRowCollision s x y r u := by
  have hone : spriteCollision t x' y' 1 = spriteRowCollision t x' y' 0 t := spriteCollision_succ t x' y' 0
  rw [hone, Bool.eq_iff_iff, spriteRowCollision_iff, spriteRowCollision_iff]
  simp only [h.index, h.sameIndex, State.byteAt_congr hm, Nat.add_zero]

/-- A sprite of one row completes where the row that it names can be read and drawn. -/
theorem NamesRow.exec_drw_one (h : NamesRow s x y r t x' y') (hm : t.mem = u.mem) (hr : s.i.toNat + r < 0x1A20)
    (hp : ∀ c, c < 8 → spriteIndex s x y r c < 2048) :
    ∃ w, exec (.drw x' y' 1) t = .next w ∧ w.mem = (s.drawSpriteCols x y r 8 u).mem ∧
      w.getV regVF = b2u (spriteRowCollision s x y r u) := by
  refine ⟨_, exec_drw_of_ok (fun q hq => ?_) (fun q c hq hc => ?_), h.drawSprite_mem hm, ?_⟩
  · obtain rfl : q = 0 := Nat.lt_one_iff.mp hq
    rw [h.index]
    exact hr
  · obtain rfl : q = 0 := Nat.lt_one_iff.mp hq
    rw [h.sameIndex]
    exact hp c hc
  · exact (State.getV_setV_self _ _ _).trans (congrArg b2u (h.sameCollision hm))

/-- I + n and V[y] + n name row n where neither wraps. -/
theorem namesRow_of_lt (hi : s.i.toNat + n < 65536) (hy : (s.getV y).toNat + n < 256) (x : Reg) (t : State) :
    NamesRow s x y n
      ((({ t with i := s.i + BitVec.ofNat 16 n } : State).setV 0 (s.getV x)).setV 1 (s.getV y + BitVec.ofNat 8 n)) 0 1 where
  index := by
    rw [State.setV_i, State.setV_i, BitVec.toNat_add, BitVec.toNat_ofNat]
    omega
  column := by rw [State.getV_setV_ne _ _ (by decide), State.getV_setV_self]
  row := by
    rw [State.getV_setV_self, BitVec.toNat_add, BitVec.toNat_ofNat]
    omega

theorem b2u_or (a b : Bool) : b2u (a || b) = b2u a ||| b2u b := by cases a <;> cases b <;> rfl

/-! ## The first access that fails -/

/-- The loops' counters, split at the one that fails. -/
theorem range_eq_append_cons (h : r < n) : ∃ back, List.range n = List.range r ++ r :: back := by
  obtain ⟨d, rfl⟩ := Nat.exists_eq_add_of_lt h
  exact ⟨_, by rw [Nat.add_assoc, List.range_add, List.range_succ_eq_map, List.map_cons, Nat.add_zero]⟩

/-- DRW where the rows before row r can be read and drawn: they are drawn, and row r is next. -/
theorem exec_drw_reaches_row {n : Count4} (hrn : r < n.val) (hr : ∀ r', r' < r → s.i.toNat + r' < 0x1A20)
    (hp : ∀ r' c', r' < r → c' < 8 → spriteIndex s x y r' c' < 2048) :
    ∃ rows k, exec (.drw x y n) s =
      drawRows (s.pc - 2) s.i.toNat (s.getV x).toNat (s.getV y).toNat (r :: rows) (s.drawSprite x y r)
        (spriteCollision s x y r) k := by
  obtain ⟨rows, hrows⟩ := range_eq_append_cons hrn
  refine ⟨rows, fun s collision => .next (s.setV regVF (b2u collision)), ?_⟩
  refine Eq.trans ?_ (drawRows_append (fun r' h => hr r' (List.mem_range.mp h))
    (fun r' h c' => hp r' c' (List.mem_range.mp h)) _ _ _ _ _)
  exact congrArg (drawRows _ _ _ _ · s false _) hrows

/-- A row byte past memory faults before any position of its row (R101, R202). -/
theorem exec_drw_of_byte_fault {n : Count4} (hrn : r < n.val) (hr : ∀ r', r' < r → s.i.toNat + r' < 0x1A20)
    (hp : ∀ r' c', r' < r → c' < 8 → spriteIndex s x y r' c' < 2048) (hge : 0x1A20 ≤ s.i.toNat + r) :
    exec (.drw x y n) s = raise .outOfBounds (s.i.toNat + r) (s.pc - 2) (s.drawSprite x y r) := by
  obtain ⟨rows, k, hreach⟩ := exec_drw_reaches_row hrn hr hp
  rw [hreach, drawRows, readByte_of_ge hge]

/-- A position past the framebuffer faults with the columns before it drawn, whatever its sprite bit (R101, R204). -/
theorem exec_drw_of_pixel_fault {n : Count4} (hrn : r < n.val) (hc : c < 8) (hr : ∀ r', r' ≤ r → s.i.toNat + r' < 0x1A20)
    (hp : ∀ r' c', c' < 8 → drawnBefore r' c' r c → spriteIndex s x y r' c' < 2048) (hge : 2048 ≤ spriteIndex s x y r c) :
    exec (.drw x y n) s = raise .drawOutOfFramebuffer (spriteIndex s x y r c) (s.pc - 2)
      (s.drawSpriteCols x y r c (s.drawSprite x y r)) := by
  obtain ⟨rows, k, hreach⟩ := exec_drw_reaches_row hrn (fun r' h => hr r' (Nat.le_of_lt h))
    fun r' c' h hc' => hp r' c' hc' (.inl h)
  obtain ⟨cols, hcols⟩ := range_eq_append_cons hc
  have hbefore : ∀ c' ∈ List.range c, pixelIndex ((s.getV x).toNat + c') ((s.getV y).toNat + r) < 2048 := by
    intro c' h
    have hlt := List.mem_range.mp h
    exact hp r c' (by omega) (.inr ⟨rfl, hlt⟩)
  rw [hreach, drawRows, readByte_of_lt (hr r (Nat.le_refl r)), hcols, drawRow_append hbefore, drawRow_cons_of_ge hge]
  rfl

/-- Rows and the first columns of the next one, none drawn over. -/
theorem drawnExactly_drawSpriteCols (hc : c < 8) (hapart : spriteApart s x y (r + 1)) :
    DrawnExactly s (s.drawSpriteCols x y r c (s.drawSprite x y r)) x y (fun r' c' => drawnBefore r' c' r c) := by
  obtain ⟨hdrawn, hkept⟩ := drawnExactly_drawSprite (spriteApart_of_succ hapart)
  refine ⟨fun r' c' hc' hbefore => ?_, fun a ha => ?_⟩
  · rcases hbefore with hlt | ⟨rfl, hlt⟩
    · refine Eq.trans (State.drawSpriteCols_byteAt_of_ne fun d hd e => ?_) (hdrawn r' c' hc' hlt)
      have := spriteIndex_inj hc' (by omega) (Nat.add_left_cancel e)
      omega
    · refine (State.drawSpriteCols_byteAt_of_lt hlt).trans ?_
      rw [State.drawSprite_byteAt_rowByte hapart, State.drawSprite_byteAt_rowPixel hc']
      rfl
  · rw [State.drawSpriteCols_byteAt_of_ne fun c' hc' => ha r c' (by omega) (.inr ⟨rfl, hc'⟩)]
    exact hkept a fun r' c' hc' h => ha r' c' hc' (.inl h)

/-- A sprite byte past memory is so near the rows before it, and these end so near the last pixel, that none is drawn over. -/
theorem spriteApart_of_byte_ge (hp : ∀ r c, r < n → c < 8 → spriteIndex s x y r c < 2048) (hge : 0x1A20 ≤ s.i.toNat + n) :
    spriteApart s x y n := by
  intro r hr r' hr' c hc e
  have hlast : spriteIndex s x y (n - 1) c < 2048 := hp (n - 1) c (by omega) hc
  rw [spriteIndex_eq, pixelIndex_eq] at hlast e
  rw [Config.screenBase_eq] at e
  omega

/-! ## Twice -/

/-- Drawing a bit twice restores the byte. -/
theorem xorPixel_xorPixel (p : Byte) (bit : Bool) : xorPixel (xorPixel p bit) bit = p := by
  rw [xorPixel, xorPixel, BitVec.xor_assoc, BitVec.xor_self, BitVec.xor_zero]

/-- A drawn 1 bit leaves 0 on a byte 1 alone. -/
theorem xorPixel_true_eq_zero (p : Byte) : xorPixel p true = 0 ↔ p = 1 := BitVec.xor_eq_zero_iff

/-- A sprite drawn again, from the memory that the first draw left, restores every byte. -/
theorem byteAt_of_drawnExactly_twice {drawn : Nat → Nat → Prop} {t' : State} (h : DrawnExactly s t x y drawn)
    (h' : DrawnExactly t' u x' y' drawn) (hbyte : ∀ a, t'.byteAt a = t.byteAt a)
    (hindex : ∀ r c, spriteIndex t' x' y' r c = spriteIndex s x y r c)
    (hbit : ∀ r c, drawn r c → spriteBitAt t' r c = spriteBitAt s r c) (a : Nat) : u.byteAt a = s.byteAt a := by
  obtain ⟨hfirst, hkept⟩ := (drawnExactly_iff _ _ _ _ _).mp h
  obtain ⟨hsecond, hkept'⟩ := (drawnExactly_iff _ _ _ _ _).mp h'
  by_cases ha : ∃ r c, c < 8 ∧ drawn r c ∧ a = 0x1220 + spriteIndex s x y r c
  · obtain ⟨r, c, hc, hd, rfl⟩ := ha
    have hr := hsecond r c hc hd
    rwa [hindex, hbyte, hfirst r c hc hd, hbit r c hd, xorPixel_xorPixel] at hr
  · have hnone : ∀ r c, c < 8 → drawn r c → a ≠ 0x1220 + spriteIndex s x y r c :=
      fun r c hc hd e => ha ⟨r, c, hc, hd, e⟩
    rw [hkept' a fun r c hc hd => hindex r c ▸ hnone r c hc hd, hbyte, hkept a hnone]

end

/-! ## The statements of 40_screen.md -/

/-- Settles O22: CLS clears memory as the host's reset does. -/
theorem clsZeroesTheFramebufferOnly : Obligations.ClsZeroesTheFramebufferOnly := by
  intro s
  have hread : ∀ a, ({ s with mem := s.mem.clearScreen } : State).byteAt a =
      if 0x1220 ≤ a ∧ a < 0x1A20 then 0 else s.byteAt a := resetAction_byteAt s
  refine ⟨{ s with mem := s.mem.clearScreen }, rfl, rfl, fun a hlow hhigh => ?_, fun a hout => ?_⟩
  · rw [hread, if_pos ⟨hlow, hhigh⟩]
  · rw [hread, if_neg (by omega)]

/-- Settles O23, by what the rows draw and when their collision flag is set. -/
theorem drwDrawsSpriteAndReportsCollision : Obligations.DrwDrawsSpriteAndReportsCollision := by
  intro s x y n hr hp hapart
  refine ⟨_, exec_drw_of_ok hr hp, ?_, drawnExactly_drawSprite hapart, ?_, ?_, fun r hne => ?_⟩
  · rw [State.drawSprite_eq]; rfl
  · rintro ⟨r, c, hrn, hc, hlit⟩
    have hcoll : spriteCollision s x y n.val = true := (spriteCollision_iff hapart).mpr ⟨r, hrn, c, hc, hlit⟩
    rw [State.getV_setV_self, hcoll]; rfl
  · intro hdark
    have hcoll : spriteCollision s x y n.val = false := by
      rw [Bool.eq_false_iff, Ne, spriteCollision_iff hapart]
      rintro ⟨r, hrn, c, hc, hbit, hlit⟩
      exact hlit (hdark r c hrn hc hbit)
    rw [State.getV_setV_self, hcoll]; rfl
  · rw [State.getV_setV_ne _ _ hne, State.drawSprite_eq]; rfl

/-- Settles O24: the state of the second draw names row n, over the memory that the n rows left. -/
theorem drwDrawsRowByRow : Obligations.DrwDrawsRowByRow := by
  intro s x y n m hm hr hp
  have hi : s.i.toNat + n.val < 0x1A20 := hr n.val (by omega)
  have hy : (s.getV y).toNat + n.val < 32 := by
    have hlast := hp n.val 0 (by omega) (by omega)
    rw [spriteIndex_eq, pixelIndex_eq] at hlast
    omega
  obtain ⟨t, ht, htmem, htcoll⟩ : ∃ t, exec (.drw x y n) s = .next t ∧ t.mem = (s.drawSprite x y n.val).mem ∧
      t.getV regVF = b2u (spriteCollision s x y n.val) :=
    ⟨_, exec_drw_of_ok (fun r h => hr r (by omega)) (fun r c h => hp r c (by omega)), rfl, State.getV_setV_self _ _ _⟩
  have hrow := namesRow_of_lt (s := s) (n := n.val) (y := y) (by omega) (by omega) x t
  obtain ⟨u, hu, humem, hucoll⟩ := hrow.exec_drw_one htmem hi fun c => hp n.val c (by omega)
  refine ⟨t, u, _, ht, hu, exec_drw_of_ok hr hp, ?_, ?_, fun r hne => ?_⟩
  · rw [humem, ← State.drawSprite_succ, ← hm, State.drawSprite_eq]
    rfl
  · rw [htcoll, hucoll, State.getV_setV_self, hm, spriteCollision_succ, b2u_or]
  · rw [State.getV_setV_ne _ _ hne, State.drawSprite_eq]
    rfl

/-- Settles O25: both faults come after the rows before row r, whose memory `drawSprite` gives. -/
theorem drwFaultsAtFirstBadAccess : Obligations.DrwFaultsAtFirstBadAccess := by
  intro s x y n r c hrn hc hr hp
  have hrows : ∀ r' c', r' < r.val → c' < 8 → spriteIndex s x y r' c' < 2048 := fun r' c' h hc' => hp r' c' hc' (.inl h)
  refine ⟨fun hin hge => ?_, fun hge _ => ?_⟩
  · have hread : ∀ r', r' ≤ r.val → s.i.toNat + r' < 0x1A20 := fun r' h => by omega
    refine ⟨_, s.drawSpriteCols x y r c (s.drawSprite x y r), exec_drw_of_ok hr hrows,
      exec_drw_of_pixel_fault hrn hc hread hp hge, ?_, fun c' hc' => State.drawSpriteCols_byteAt_of_lt hc',
      fun a ha => State.drawSpriteCols_byteAt_of_ne ha, drawnExactly_drawSpriteCols hc⟩
    rw [State.drawSpriteCols, State.drawCols_eq, State.drawSprite_eq]
  · exact ⟨_, s.drawSprite x y r, exec_drw_of_ok hr hrows, exec_drw_of_byte_fault hrn hr hrows hge,
      State.drawSprite_eq s x y r, drawnExactly_drawSprite (spriteApart_of_byte_ge hrows hge)⟩

/-- Settles O26: each draw is one of O23, the second from the memory that the first left. -/
theorem drwTwiceRestoresTheScreen : Obligations.DrwTwiceRestoresTheScreen := by
  intro s x y n hr hp hapart
  obtain ⟨t, ht, -, hfirst, -⟩ :=
    drwDrawsSpriteAndReportsCollision s x y n hr hp fun r hrn r' hr' c => hapart r r' c hrn (by omega)
  obtain ⟨hdrawn, hkept⟩ := (drawnExactly_iff _ _ _ _ _).mp hfirst
  refine ⟨t, ht, fun t' x' y' hm hi hx hy => ?_⟩
  have hbyte := State.byteAt_congr hm
  have hindex : ∀ r c, spriteIndex t' x' y' r c = spriteIndex s x y r c := fun r c => by
    rw [spriteIndex_eq, spriteIndex_eq, hx, hy]
  have hbit : ∀ r c, r < n.val → spriteBitAt t' r c = spriteBitAt s r c := fun r c hrn => by
    rw [spriteBitAt, hbyte, hi, hkept _ fun r' c hc hr' => hapart r r' c hrn hr' hc, spriteBitAt]
  obtain ⟨u, hu, -, hsecond, hlit, hdark, -⟩ := drwDrawsSpriteAndReportsCollision t' x' y' n
    (by simpa only [hi] using hr) (by simpa only [hindex] using hp)
    fun r hrn r' hr' c hc => by rw [hi, hindex]; exact hapart r r' c hrn (by omega) hc
  have hzero : ∀ r c, r < n.val → c < 8 → spriteBitAt s r c = true →
      (t'.byteAt (0x1220 + spriteIndex t' x' y' r c) = 0 ↔ s.byteAt (0x1220 + spriteIndex s x y r c) = 1) := by
    intro r c hrn hc hone
    rw [hindex, hbyte, hdrawn r c hc hrn, hone, xorPixel_true_eq_zero]
  refine ⟨u, hu, byteAt_of_drawnExactly_twice hfirst hsecond hbyte hindex hbit, ?_, fun hones => ?_⟩
  · rintro ⟨r, c, hrn, hc, hone, hne⟩
    exact hlit ⟨r, c, hrn, hc, (hbit r c hrn).trans hone, mt (hzero r c hrn hc hone).mp hne⟩
  · refine hdark fun r c hrn hc hone => ?_
    have hone : spriteBitAt s r c = true := (hbit r c hrn).symm.trans hone
    exact (hzero r c hrn hc hone).mpr (hones r c hrn hc hone)

end Sys2Proof.Machine

/-! PROOFS. The control-flow instructions (41_flow.md R110-R120): jumps, skips, the push of CALL and the pop of RET, and the return
to the caller. -/

namespace Sys2Proof.Machine

/-! ## Jumps and skips -/

theorem zextAddr_toNat (nnn : Addr12) : (zextAddr nnn).toNat = nnn.toNat := BitVec.toNat_setWidth_of_le (by decide)

theorem zextByte_toNat (b : Byte) : (zextByte b).toNat = b.toNat := BitVec.toNat_setWidth_of_le (by decide)

/-- The target of `Bnnn` is at most 0x0FFF + 0xFF, so the sum does not wrap (R118, decision D12). -/
theorem zextAddr_add_zextByte_toNat (nnn : Addr12) (b : Byte) :
    (zextAddr nnn + zextByte b).toNat = nnn.toNat + b.toNat := by
  rw [BitVec.toNat_add, zextAddr_toNat, zextByte_toNat]
  omega

/-- Settles O27. -/
theorem jpSetsProgramCounterOnly : Obligations.JpSetsProgramCounterOnly :=
  fun _ nnn => ⟨_, rfl, rfl, zextAddr_toNat nnn⟩

/-- Settles O28. -/
theorem jpV0SetsProgramCounterOnly : Obligations.JpV0SetsProgramCounterOnly :=
  fun s nnn => ⟨_, rfl, rfl, zextAddr_add_zextByte_toNat nnn (s.getV 0)⟩

section
variable (s : State) (a b : Byte)

/-- The skip of `3xkk` and `5xy0` (R114, R116). -/
theorem State.skipIf_beq : s.skipIf (a == b) = if a = b then { s with pc := s.pc + 2 } else s := by
  simp only [State.skipIf_eq, beq_iff_eq]

/-- The skip of `4xkk` and `9xy0`, with the complement of the comparison of `skipIf_beq` (R115, R117). -/
theorem State.skipIf_bne : s.skipIf (a != b) = if a = b then s else { s with pc := s.pc + 2 } := by
  simp only [State.skipIf_eq, bne_iff_ne, ite_not]

end

/-- Settles O29: each skip is `skipIf` of its comparison. -/
theorem skipsAdvanceWhenComparisonHolds : Obligations.SkipsAdvanceWhenComparisonHolds := fun s x y kk =>
  ⟨congrArg _ (s.skipIf_beq (s.getV x) kk), congrArg _ (s.skipIf_bne (s.getV x) kk),
    congrArg _ (s.skipIf_beq (s.getV x) (s.getV y)), congrArg _ (s.skipIf_bne (s.getV x) (s.getV y))⟩

/-! ## The pop -/

/-- RET reads the word at SP, and raises SP only once it has it (R111). -/
theorem exec_ret (s : State) :
    exec .ret s = readWord (s.pc - 2) s.sp.toNat s fun w => .next { s with pc := w, sp := s.sp + 2 } := rfl

/-- RET where both bytes at SP are in memory (R111). -/
theorem exec_ret_of_lt {s : State} (h : s.sp.toNat + 1 < 0x1A20) :
    exec .ret s =
      .next { s with pc := wordOfBytes (s.byteAt s.sp.toNat) (s.byteAt (s.sp.toNat + 1)), sp := s.sp + 2 } :=
  (exec_ret s).trans (readWord_of_lt h _ _ _)

/-- RET goes to the word whose bytes stand at SP (R111). -/
theorem exec_ret_of_bytes {s : State} {w : Word} (h : s.sp.toNat + 1 < 0x1A20) (hhi : s.byteAt s.sp.toNat = hiByte w)
    (hlo : s.byteAt (s.sp.toNat + 1) = loByte w) : exec .ret s = .next { s with pc := w, sp := s.sp + 2 } := by
  rw [exec_ret_of_lt h, hhi, hlo, wordOfBytes_hi_lo]

/-- Settles O31: the pop is a word read at SP. -/
theorem retPopsProgramCounter : Obligations.RetPopsProgramCounter := by
  intro s
  refine ⟨exec_ret_of_lt, fun hge => ?_, fun hlast => ?_⟩
  · rw [exec_ret, readWord_of_ge hge]
  · rw [exec_ret, hlast, readWord_last]

/-! ## The push -/

/-- The state that a completed CALL leaves: SP lower by 2, the return address big-endian there, PC at the target (R112). -/
def State.callTo (s : State) (nnn : Addr12) : State :=
  { ({ s with sp := s.sp - 2 } : State).pokeWord (s.sp - 2).toNat s.pc with pc := zextAddr nnn }

section
variable (s : State) (nnn : Addr12)

/-- CALL changes PC, SP and memory, and nothing else (R112). -/
theorem State.callTo_eq :
    s.callTo nnn = { s with pc := (s.callTo nnn).pc, sp := (s.callTo nnn).sp, mem := (s.callTo nnn).mem } := rfl

@[simp] theorem State.callTo_pc : (s.callTo nnn).pc = zextAddr nnn := rfl

@[simp] theorem State.callTo_sp : (s.callTo nnn).sp = s.sp - 2 := rfl

theorem State.callTo_byteAt_hi : (s.callTo nnn).byteAt (s.sp - 2).toNat = hiByte s.pc :=
  State.byteAt_pokeWord_hi _ _ _

theorem State.callTo_byteAt_lo : (s.callTo nnn).byteAt ((s.sp - 2).toNat + 1) = loByte s.pc :=
  State.byteAt_pokeWord_lo _ _ _

theorem State.callTo_byteAt_ne {a : Nat} (hhi : a ≠ (s.sp - 2).toNat) (hlo : a ≠ (s.sp - 2).toNat + 1) :
    (s.callTo nnn).byteAt a = s.byteAt a := State.byteAt_pokeWord_ne { s with sp := s.sp - 2 } s.pc hhi hlo

/-- CALL where a program may write both bytes at SP - 2 (R112). -/
theorem exec_call_of_ok (hhi : writeFault (s.sp - 2).toNat = none) (hlo : writeFault ((s.sp - 2).toNat + 1) = none) :
    exec (.call nnn) s = .next (s.callTo nnn) := writeWord_of_ok hhi hlo _ _ _ _

end

/-- Settles O30: the push is a word write at SP - 2, made after SP was lowered. -/
theorem callPushesReturnAddressAndJumps : Obligations.CallPushesReturnAddressAndJumps := by
  intro s nnn
  refine ⟨fun hhi hlo => ?_, fun code hfirst => writeWord_of_first_fault hfirst _ _ _ _, fun code hhi hsecond => ?_⟩
  · exact ⟨s.callTo nnn, exec_call_of_ok s nnn hhi hlo, s.callTo_eq nnn, zextAddr_toNat nnn, s.callTo_sp nnn,
      s.callTo_byteAt_hi nnn, s.callTo_byteAt_lo nnn, fun _ => s.callTo_byteAt_ne nnn⟩
  · exact ⟨_, writeWord_of_second_fault hhi hsecond _ _ _ _, rfl, State.byteAt_setByte_self _ _ _,
      fun _ => State.byteAt_setByte_ne { s with sp := s.sp - 2 } _⟩

/-! ## The return to the caller -/

/-- Settles O32: the two bytes that RET reads are those of the PC that CALL pushed, and SP - 2 + 2 is SP. -/
theorem returnGoesBackToTheCaller : Obligations.ReturnGoesBackToTheCaller := by
  intro s nnn hlow hhigh hgeometryHi hgeometryLo
  have hsp : (s.sp - 2).toNat = s.sp.toNat - 2 := by bv_omega
  have hsucc : (s.sp - 2).toNat + 1 = s.sp.toNat - 1 := by omega
  have hhi : writeFault (s.sp - 2).toNat = none := writeFault_eq_none.mpr (by omega)
  have hlo : writeFault ((s.sp - 2).toNat + 1) = none := writeFault_eq_none.mpr (by omega)
  refine ⟨s.callTo nnn, exec_call_of_ok s nnn hhi hlo, fun t' hsp' hhi' hlo' => ?_⟩
  rw [State.callTo_sp] at hsp'
  rw [← hsp, State.callTo_byteAt_hi, ← hsp'] at hhi'
  rw [← hsucc, State.callTo_byteAt_lo, ← hsp'] at hlo'
  have hin : t'.sp.toNat + 1 < 0x1A20 := by rw [hsp']; omega
  rw [exec_ret_of_bytes hin hhi' hlo', hsp', BitVec.sub_add_cancel]

end Sys2Proof.Machine

/-! PROOFS. The register loads and arithmetic (42_alu.md R130-R144). Each of them writes Vx, or VF and then Vx; what such writes
leave is said once for each of the two shapes. -/

namespace Sys2Proof.Machine

/-! ## The instructions that write Vx only -/

theorem writesOnly_setV (s : State) (x : Reg) (b : Byte) : WritesOnly s (s.setV x b) x b :=
  ⟨s.setV_eq x b, s.getV_setV_self x b, fun _ => s.getV_setV_ne b⟩

/-- An instruction that is one register write completes and writes that register only. -/
theorem exists_writesOnly_of_exec_eq {i : Instr} {s : State} {x : Reg} {b : Byte} (h : exec i s = .next (s.setV x b)) :
    ∃ t, exec i s = .next t ∧ WritesOnly s t x b := ⟨_, h, writesOnly_setV s x b⟩

/-- Settles O33: each of the six is one write of Vx; the sum is that of bytes, which wraps (R131). -/
theorem loadsAndLogicWriteVxOnly : Obligations.LoadsAndLogicWriteVxOnly := by
  intro s x y kk
  have hsum : s.getV x + kk = BitVec.ofNat 8 (((s.getV x).toNat + kk.toNat) % 256) :=
    BitVec.eq_of_toNat_eq (by simp)
  refine ⟨?_, hsum ▸ ?_, ?_, ?_, ?_, ?_⟩ <;> exact exists_writesOnly_of_exec_eq rfl

/-- Settles O38: the draw moves the counter on, and Vx is written in the state that has it moved (R141, R144). -/
theorem rndMasksAFreshFreeByte : Obligations.RndMasksAFreshFreeByte := fun s x kk =>
  have ⟨_, hresult, hother⟩ := writesOnly_setV { s with draws := s.draws + 1 } x (Config.randByte s.draws &&& kk)
  ⟨_, rfl, rfl, hresult, hother⟩

/-! ## The instructions that write VF and then Vx -/

/-- `t` is `s` with the flag written to VF and the result to Vx after it: where x is F, the result replaces the flag (R142). -/
def WritesFlagThen (s t : State) (x : Reg) (flag result : Nat) : Prop :=
  t = { s with v := t.v } ∧ (t.getV x).toNat = result ∧ (x ≠ 15 → (t.getV 15).toNat = flag) ∧
    ∀ r, r ≠ x → r ≠ 15 → t.getV r = s.getV r

/-- A register read as an operand once VF holds the flag (R142, decision D1). -/
def State.operand (s : State) (flag : Nat) (r : Reg) : Nat := if r = 15 then flag else (s.getV r).toNat

section
variable {s : State} {f b : Byte} {flag result : Nat}

theorem writesFlagThen_setV (x : Reg) (hf : f.toNat = flag) (hb : b.toNat = result) :
    WritesFlagThen s ((s.setV regVF f).setV x b) x flag result := by
  refine ⟨rfl, ?_, fun hx => ?_, fun r hrx hrF => ?_⟩
  · rw [State.getV_setV_self, hb]
  · rw [State.getV_setV_ne _ b (Ne.symm hx), State.getV_setV_self, hf]
  · rw [State.getV_setV_ne _ b hrx, State.getV_setV_ne s f hrF]

theorem State.getV_setV_regVF_toNat (hf : f.toNat = flag) (r : Reg) :
    ((s.setV regVF f).getV r).toNat = s.operand flag r := by
  rw [State.getV_setV, apply_ite BitVec.toNat, hf, State.operand]

end

theorem b2u_carryFlag (a b : Byte) : b2u (carryFlag a b) = if 255 < a.toNat + b.toNat then 1 else 0 := by
  simp only [b2u, carryFlag, gt_iff_lt, decide_eq_true_eq]

theorem noBorrowFlag_toNat (a b : Byte) : (b2u (noBorrowFlag a b)).toNat = if b.toNat < a.toNat then 1 else 0 := by
  simp only [b2u_toNat, noBorrowFlag, gt_iff_lt, decide_eq_true_eq]

/-- Settles O34: both operands are read before the flag is written (R136). -/
theorem addRegSumsAndCarries : Obligations.AddRegSumsAndCarries := by
  intro s x y
  obtain ⟨hstate, hsum, hcarry, hother⟩ := writesFlagThen_setV (s := s) x
    (f := b2u (carryFlag (s.getV x) (s.getV y))) rfl (BitVec.toNat_add (s.getV x) (s.getV y))
  exact ⟨_, rfl, hstate, hsum, fun hx => (BitVec.eq_of_toNat_eq (hcarry hx)).trans (b2u_carryFlag _ _), hother⟩

/-! ## The differences -/

/-- The state that SUB and SUBN leave: the strict no-borrow flag of Vp and Vq in VF, then Vp - Vq in Vx, both read with the flag
in place (R137, R139, decision D1). -/
def State.setDifference (s : State) (x p q : Reg) : State :=
  let s := s.setV regVF (b2u (noBorrowFlag (s.getV p) (s.getV q)))
  s.setV x (s.getV p - s.getV q)

theorem exec_sub (s : State) (x y : Reg) : exec (.sub x y) s = .next (s.setDifference x x y) := rfl

theorem exec_subn (s : State) (x y : Reg) : exec (.subn x y) s = .next (s.setDifference x y x) := rfl

/-- The strict no-borrow flag of Vp and Vq (R137, R139). -/
def State.strictFlag (s : State) (p q : Reg) : Nat := if (s.getV q).toNat < (s.getV p).toNat then 1 else 0

theorem setDifference_writesFlagThen (s : State) (x p q : Reg) :
    WritesFlagThen s (s.setDifference x p q) x (s.strictFlag p q)
      ((256 + s.operand (s.strictFlag p q) p - s.operand (s.strictFlag p q) q) % 256) := by
  have hflag : (b2u (noBorrowFlag (s.getV p) (s.getV q))).toNat = s.strictFlag p q := noBorrowFlag_toNat _ _
  refine writesFlagThen_setV x hflag ?_
  rw [← State.getV_setV_regVF_toNat hflag p, ← State.getV_setV_regVF_toNat hflag q]
  bv_omega

/-- Settles O35: SUB is the difference with p = x and q = y. -/
theorem subSubtractsAfterStrictFlag : Obligations.SubSubtractsAfterStrictFlag :=
  fun s x y => ⟨_, exec_sub s x y, setDifference_writesFlagThen s x x y⟩

/-- Settles O36: SUBN is the difference with p = y and q = x. -/
theorem subnSubtractsAfterStrictFlag : Obligations.SubnSubtractsAfterStrictFlag :=
  fun s x y => ⟨_, exec_subn s x y, setDifference_writesFlagThen s x y x⟩

/-! ## The shifts -/

theorem shiftRight_one_toNat (b : Byte) : (b >>> 1).toNat = b.toNat / 2 := BitVec.toNat_ushiftRight b 1

theorem shiftLeft_one_toNat (b : Byte) : (b <<< 1).toNat = b.toNat * 2 % 256 := by
  rw [BitVec.toNat_shiftLeft, Nat.shiftLeft_eq]

/-- Settles O37: Vy is not read, and the shift reads Vx with the flag in place. -/
theorem shiftsMoveVxByOne : Obligations.ShiftsMoveVxByOne := by
  intro s x y
  refine ⟨⟨_, rfl, writesFlagThen_setV x (shrFlag_toNat _) ?_⟩, ⟨_, rfl, writesFlagThen_setV x (shlFlag_toNat _) ?_⟩⟩
  · rw [shiftRight_one_toNat, State.getV_setV_regVF_toNat (shrFlag_toNat _), State.operand]
  · rw [shiftLeft_one_toNat, State.getV_setV_regVF_toNat (shlFlag_toNat _), State.operand]

end Sys2Proof.Machine

/-! PROOFS. The index-register and memory-transfer instructions (43_index_memory.md R150-R155). A transfer is described by the
state that its first bytes or registers leave; where it completes and where it faults, that state is the one reached. -/

namespace Sys2Proof.Machine

/-! ## The instructions that set I -/

/-- The font address is at most 5 * 255, so it does not wrap (R152, decision D14). -/
theorem fontAddr_toNat (b : Byte) :
    (BitVec.ofNat 16 (Config.fontBase + Config.fontGlyphSize * b.toNat)).toNat = 5 * b.toNat := by
  rw [Config.fontBase_eq, Config.fontGlyphSize_eq, BitVec.toNat_ofNat]
  omega

/-- Settles O39. -/
theorem ldIndexAndLdFontSetIOnly : Obligations.LdIndexAndLdFontSetIOnly := fun s x nnn =>
  ⟨⟨_, rfl, rfl, zextAddr_toNat nnn⟩, ⟨_, rfl, rfl, fontAddr_toNat (s.getV x)⟩⟩

theorem indexFlag_toNat (i : Word) (b : Byte) :
    (b2u (indexFlag i b)).toNat = if 0x0FFF < i.toNat + b.toNat then 1 else 0 := by
  simp only [b2u_toNat, indexFlag, Config.iCarryLimit_eq, gt_iff_lt, decide_eq_true_eq]

/-- I and a register of eight bits are summed modulo 65536 (R151). -/
theorem add_zextByte_toNat (i : Word) (b : Byte) : (i + zextByte b).toNat = (i.toNat + b.toNat) % 65536 := by
  rw [BitVec.toNat_add, zextByte_toNat]

/-- Settles O40: the flag is a write of VF, and the sum reads Vx in the state that has it. -/
theorem addIndexFlagsPassing0FFF : Obligations.AddIndexFlagsPassing0FFF := by
  intro s x
  obtain ⟨_, hflag, hother⟩ := writesOnly_setV s regVF (b2u (indexFlag s.i (s.getV x)))
  exact ⟨_, rfl, rfl, (congrArg BitVec.toNat hflag).trans (indexFlag_toNat _ _), add_zextByte_toNat _ _, hother⟩

/-! ## The decimal digits -/

/-- The decimal digits of a byte, the hundreds first (R153). -/
def decimalDigit (v : Byte) (k : Nat) : Byte := BitVec.ofNat 8 (v.toNat / 10 ^ (2 - k) % 10)

theorem decimalDigit_toNat (v : Byte) (k : Nat) : (decimalDigit v k).toNat = v.toNat / 10 ^ (2 - k) % 10 := by
  rw [decimalDigit, BitVec.toNat_ofNat]
  omega

/-- A byte is below 1000, so its hundreds are one digit. -/
theorem hundreds_eq_decimalDigit (v : Byte) : hundreds v = decimalDigit v 0 := by
  refine BitVec.eq_of_toNat_eq ?_
  rw [hundreds_toNat, decimalDigit_toNat]
  omega

theorem tens_eq_decimalDigit (v : Byte) : tens v = decimalDigit v 1 := rfl

theorem ones_eq_decimalDigit (v : Byte) : ones v = decimalDigit v 2 := by
  rw [ones, decimalDigit, Nat.sub_self, Nat.pow_zero, Nat.div_one]

/-- The state once the first `n` decimal digits of Vx stand at I upwards (R153). -/
def State.storeDigits (s : State) (x : Reg) : Nat → State
  | 0 => s
  | n + 1 => (s.storeDigits x n).setByte (s.i.toNat + n) (decimalDigit (s.getV x) n)

section
variable (s : State) (x : Reg)

/-- Storing digits changes the memory and nothing else. -/
theorem State.storeDigits_eq (n : Nat) : s.storeDigits x n = { s with mem := (s.storeDigits x n).mem } := by
  induction n with
  | zero => rfl
  | succ n ih => rw [State.storeDigits, ih]; rfl

theorem State.storeDigits_byteAt_of_lt {n k : Nat} (h : k < n) :
    (s.storeDigits x n).byteAt (s.i.toNat + k) = decimalDigit (s.getV x) k := by
  induction n with
  | zero => omega
  | succ n ih =>
    rw [State.storeDigits]
    obtain rfl | hk : k = n ∨ k < n := by omega
    · exact State.byteAt_setByte_self _ _ _
    · rw [State.byteAt_setByte_ne _ _ (by omega), ih hk]

theorem State.storeDigits_byteAt_outside {n a : Nat} (h : a < s.i.toNat ∨ s.i.toNat + n ≤ a) :
    (s.storeDigits x n).byteAt a = s.byteAt a := by
  induction n with
  | zero => rfl
  | succ n ih => rw [State.storeDigits, State.byteAt_setByte_ne _ _ (by omega), ih (by omega)]

/-- `Fx33` is the byte writes of the three digits in turn (R153). -/
theorem exec_ldBcd :
    exec (.ldBcd x) s =
      writeByte (s.pc - 2) (s.i.toNat + 0) (decimalDigit (s.getV x) 0) s fun s1 =>
        writeByte (s.pc - 2) (s.i.toNat + 1) (decimalDigit (s.getV x) 1) s1 fun s2 =>
          writeByte (s.pc - 2) (s.i.toNat + 2) (decimalDigit (s.getV x) 2) s2 .next := by
  rw [← hundreds_eq_decimalDigit, ← tens_eq_decimalDigit, ← ones_eq_decimalDigit]
  rfl

/-- `Fx33` where a program may write the three bytes at I (R153). -/
theorem exec_ldBcd_of_ok (h : ∀ k, k < 3 → writeFault (s.i.toNat + k) = none) :
    exec (.ldBcd x) s = .next (s.storeDigits x 3) := by
  rw [exec_ldBcd, writeByte_of_ok (h 0 (by decide)), writeByte_of_ok (h 1 (by decide)), writeByte_of_ok (h 2 (by decide))]
  rfl

/-- `Fx33` stops at the first of its bytes that cannot be written, the digits before it stored (R153, R209). -/
theorem exec_ldBcd_of_fault {k : Nat} {code : FaultCode} (hk : k < 3)
    (hbefore : ∀ j, j < k → writeFault (s.i.toNat + j) = none) (hfault : writeFault (s.i.toNat + k) = some code) :
    exec (.ldBcd x) s = raise code (s.i.toNat + k) (s.pc - 2) (s.storeDigits x k) := by
  rw [exec_ldBcd]
  match k, hk with
  | 0, _ => exact writeByte_of_fault hfault _ _ _ _
  | 1, _ =>
    rw [writeByte_of_ok (hbefore 0 (by decide)), writeByte_of_fault hfault]
    rfl
  | 2, _ =>
    rw [writeByte_of_ok (hbefore 0 (by decide)), writeByte_of_ok (hbefore 1 (by decide)), writeByte_of_fault hfault]
    rfl

end

/-- Settles O41: all three digits are stored, or those before the first byte that cannot be written. -/
theorem bcdStoresThreeDigits : Obligations.BcdStoresThreeDigits := by
  intro s x digit
  have hdigit {n k : Nat} (hk : k < n) : ((s.storeDigits x n).byteAt (s.i.toNat + k)).toNat = digit k := by
    rw [s.storeDigits_byteAt_of_lt x hk, decimalDigit_toNat]
  refine ⟨fun hok => ?_, fun k code hk hbefore hfault => ?_⟩
  · exact ⟨_, exec_ldBcd_of_ok s x hok, s.storeDigits_eq x 3, fun _ => hdigit, fun _ => s.storeDigits_byteAt_outside x⟩
  · exact ⟨_, exec_ldBcd_of_fault s x hk hbefore hfault, s.storeDigits_eq x k, fun _ => hdigit,
      fun _ => s.storeDigits_byteAt_outside x⟩

/-! ## The register blocks -/

/-- The block V0 to Vx is the registers below a given one of it, that one, and the rest. -/
theorem exists_regsUpTo_eq_append {x k : Reg} (h : k ≤ x) :
    ∃ front back, regsUpTo x = front ++ k :: back ∧ ∀ j, j ∈ front ↔ j < k :=
  have ⟨front, back, heq, hlt, hmem, _⟩ := regsUpTo_split h
  ⟨front, back, heq, fun j => ⟨hlt j, hmem j⟩⟩

@[simp] theorem State.storeRegs_i (base : Nat) (js : List Reg) (s : State) : (State.storeRegs base js s).i = s.i := by
  rw [State.storeRegs_eq]

@[simp] theorem State.loadRegs_i (base : Nat) (js : List Reg) (s : State) : (State.loadRegs base js s).i = s.i := by
  rw [State.loadRegs_eq]

section
variable {s : State} {x k : Reg}

/-- Storing registers below `n` leaves every byte outside the `n` addresses from the base up (R154). -/
theorem State.byteAt_storeRegs_outside {base n a : Nat} {js : List Reg} (hjs : ∀ j ∈ js, j.val < n)
    (ha : a < base ∨ base + n ≤ a) : (State.storeRegs base js s).byteAt a = s.byteAt a := by
  refine State.byteAt_storeRegs_of_ne (fun j hj => ?_) s
  have := hjs j hj
  omega

/-- `Fx55` where a program may write all its bytes (R154). -/
theorem exec_storeRegs_of_ok (h : ∀ j, j ≤ x → writeFault (s.i.toNat + j.val) = none) :
    exec (.storeRegs x) s = .next { State.storeRegs s.i.toNat (regsUpTo x) s with i := indexAfterBlock s.i x } := by
  refine (storeBlock_of_ok (fun j hj => h j (mem_regsUpTo.mp hj)) _ _ _).trans ?_
  rw [State.storeRegs_i]

/-- `Fx55` stops at the first of its bytes that cannot be written, the registers before it stored (R154, R209). -/
theorem exec_storeRegs_of_fault {front back : List Reg} {code : FaultCode} (heq : regsUpTo x = front ++ k :: back)
    (hbefore : ∀ j ∈ front, writeFault (s.i.toNat + j.val) = none) (hfault : writeFault (s.i.toNat + k.val) = some code) :
    exec (.storeRegs x) s = raise code (s.i.toNat + k.val) (s.pc - 2) (State.storeRegs s.i.toNat front s) := by
  show storeBlock _ _ (regsUpTo x) s _ = _
  rw [heq]
  exact storeBlock_of_fault hbefore hfault _ _ _

/-- `Fx65` where all its bytes are in memory (R155). -/
theorem exec_loadRegs_of_ok (h : ∀ j, j ≤ x → s.i.toNat + j.val < 0x1A20) :
    exec (.loadRegs x) s = .next { State.loadRegs s.i.toNat (regsUpTo x) s with i := indexAfterBlock s.i x } := by
  refine (loadBlockRegs_of_ok (fun j hj => h j (mem_regsUpTo.mp hj)) _ _ _).trans ?_
  rw [State.loadRegs_i]

/-- `Fx65` stops at the first of its bytes past memory, the registers before it loaded (R155, R209). -/
theorem exec_loadRegs_of_fault {front back : List Reg} (heq : regsUpTo x = front ++ k :: back)
    (hbefore : ∀ j ∈ front, s.i.toNat + j.val < 0x1A20) (hfault : 0x1A20 ≤ s.i.toNat + k.val) :
    exec (.loadRegs x) s = raise .outOfBounds (s.i.toNat + k.val) (s.pc - 2) (State.loadRegs s.i.toNat front s) := by
  show loadBlockRegs _ _ (regsUpTo x) s _ = _
  rw [heq]
  exact loadBlockRegs_of_fault hbefore hfault _ _ _

end

/-- Settles O42: the block stored is V0 to Vx, or the registers before the first byte that cannot be written. -/
theorem storeRegsStoresAscendingBlock : Obligations.StoreRegsStoresAscendingBlock := by
  intro s x
  refine ⟨fun hok => ?_, fun k code hk hbefore hfault => ?_⟩
  · refine ⟨_, exec_storeRegs_of_ok hok, ?_, indexAfterBlock_toNat s.i x, fun j hj => ?_, fun a ha => ?_⟩
    · rw [State.storeRegs_eq]
    · exact State.byteAt_storeRegs_of_mem (mem_regsUpTo.mpr hj) s
    · exact State.byteAt_storeRegs_outside (fun j hj => Nat.lt_succ_of_le (mem_regsUpTo.mp hj)) ha
  · obtain ⟨front, back, heq, hfront⟩ := exists_regsUpTo_eq_append hk
    refine ⟨_, exec_storeRegs_of_fault heq (fun j hj => hbefore j ((hfront j).mp hj)) hfault, State.storeRegs_eq _ _ _,
      fun j hj => ?_, fun a ha => ?_⟩
    · exact State.byteAt_storeRegs_of_mem ((hfront j).mpr hj) s
    · exact State.byteAt_storeRegs_outside (fun j hj => (hfront j).mp hj) ha

/-- Settles O43: the block loaded is V0 to Vx, or the registers before the first byte past memory. -/
theorem loadRegsLoadsAscendingBlock : Obligations.LoadRegsLoadsAscendingBlock := by
  intro s x
  refine ⟨fun hin => ?_, fun k hk hbefore hfault => ?_⟩
  · have hok (j : Reg) (hj : j ≤ x) : s.i.toNat + j.val < 0x1A20 :=
      lt_of_le_of_lt (Nat.add_le_add_left hj _) hin
    refine ⟨_, exec_loadRegs_of_ok hok, ?_, indexAfterBlock_toNat s.i x, fun j hj => ?_, fun j hj => ?_⟩
    · rw [State.loadRegs_eq]
    · exact (State.getV_loadRegs _ _ s j).trans (if_pos (mem_regsUpTo.mpr hj))
    · exact (State.getV_loadRegs _ _ s j).trans (if_neg (mt mem_regsUpTo.mp (not_le.mpr hj)))
  · obtain ⟨front, back, heq, hfront⟩ := exists_regsUpTo_eq_append hk
    refine ⟨_, exec_loadRegs_of_fault heq (fun j hj => hbefore j ((hfront j).mp hj)) hfault, State.loadRegs_eq _ _ _,
      fun j hj => ?_, fun j hj => ?_⟩
    · exact (State.getV_loadRegs _ _ s j).trans (if_pos ((hfront j).mpr hj))
    · exact (State.getV_loadRegs _ _ s j).trans (if_neg (mt (hfront j).mp (not_lt.mpr hj)))

end Sys2Proof.Machine

/-! PROOFS. The keypad and timer instructions (44_keys_timers.md R170-R176): what each is on the word KEYS and on the bytes DT and ST,
and the wait of Fx0A between the host's key writes (R173, R228). -/

namespace Sys2Proof.Machine

/-! ## The timer instructions -/

section
variable (s : State) (x : Reg)

theorem exec_ldVxDt : exec (.ldVxDt x) s = .next (s.setV x (s.byteAt 0x1202)) :=
  readByte_of_lt (a := 0x1202) (by decide) (s.pc - 2) s fun b => .next (s.setV x b)

/-- DT is a byte that a program may write, so the store completes from every state (R174). -/
theorem exec_ldDtVx : exec (.ldDtVx x) s = .next (s.setByte 0x1202 (s.getV x)) :=
  writeByte_of_ok (a := 0x1202) (by decide) (s.pc - 2) (s.getV x) s .next

/-- ST is a byte that a program may write, so the store completes from every state (R175). -/
theorem exec_ldStVx : exec (.ldStVx x) s = .next (s.setByte 0x1203 (s.getV x)) :=
  writeByte_of_ok (a := 0x1203) (by decide) (s.pc - 2) (s.getV x) s .next

end

/-- An instruction that is one byte store completes and changes that byte only. -/
theorem exists_of_exec_eq_setByte {i : Instr} {s : State} {a : Nat} {b : Byte} (h : exec i s = .next (s.setByte a b)) :
    ∃ t, exec i s = .next t ∧ t = { s with mem := t.mem } ∧ t.byteAt a = b ∧ ∀ c, c ≠ a → t.byteAt c = s.byteAt c :=
  ⟨_, h, s.setByte_eq a b, s.byteAt_setByte_self a b, fun _ => s.byteAt_setByte_ne b⟩

/-- Settles O45: Fx07 is one register write, Fx15 and Fx18 one byte store each. -/
theorem timerInstructionsMoveOneByte : Obligations.TimerInstructionsMoveOneByte := fun s x =>
  ⟨exists_writesOnly_of_exec_eq (exec_ldVxDt s x), exists_of_exec_eq_setByte (exec_ldDtVx s x),
    exists_of_exec_eq_setByte (exec_ldStVx s x)⟩

/-! ## The key instructions on the word KEYS -/

/-- The mask that the key instructions read (R63, R69). -/
def State.keys (s : State) : Word := wordOfBytes (s.byteAt 0x1200) (s.byteAt 0x1201)

@[simp] theorem State.advance_keys (s : State) : s.advance.keys = s.keys := rfl

theorem State.skipIf_not (s : State) (c : Bool) : s.skipIf (!c) = if c then s else { s with pc := s.pc + 2 } := by
  cases c <;> rfl

theorem exec_skp (s : State) (x : Reg) :
    exec (.skp x) s = keyDown (s.pc - 2) (s.getV x) s fun down => .next (s.skipIf down) := rfl

theorem exec_sknp (s : State) (x : Reg) :
    exec (.sknp x) s = keyDown (s.pc - 2) (s.getV x) s fun down => .next (s.skipIf !down) := rfl

/-- Fx0A reads KEYS without a fault, and with no key down falls back to its own address (R173). -/
theorem exec_ldVxK (s : State) (x : Reg) :
    exec (.ldVxK x) s =
      if s.keys = 0 then .next { s with pc := s.pc - 2 }
      else .next (s.setV x (BitVec.ofNat 8 (lowestKey s.keys))) :=
  readKeys_eq (s.pc - 2) s fun m =>
    if m = 0 then .next { s with pc := s.pc - 2 } else .next (s.setV x (BitVec.ofNat 8 (lowestKey m)))

/-- Settles O44: below 16 each skip is `skipIf` of the key's bit or of its complement; from 16 on the key test faults first. -/
theorem keySkipsTestOneKeyBit : Obligations.KeySkipsTestOneKeyBit := by
  intro s x
  rw [exec_skp, exec_sknp]
  refine ⟨fun hlt => ?_, fun hge => ⟨keyDown_of_ge hge _ _ _, keyDown_of_ge hge _ _ _⟩⟩
  rw [keyDown_of_lt hlt, keyDown_of_lt hlt, State.skipIf_not]
  exact ⟨rfl, rfl⟩

/-- Settles O46, with `lowestKey_spec` for the key taken. -/
theorem waitKeyTakesLowestKeyOrRetries : Obligations.WaitKeyTakesLowestKeyOrRetries := by
  intro s x
  rw [exec_ldVxK]
  refine ⟨fun hnone => if_pos hnone, fun hkeys => ?_⟩
  obtain ⟨hlt, hdown, hleast⟩ := lowestKey_spec hkeys
  exact ⟨_, _, if_neg hkeys, hlt, hdown, hleast, writesOnly_setV s x _⟩

/-! ## The wait for a key -/

section
variable (s : State) (m : Word)

@[simp] theorem setKeys_pc : (setKeys m s).pc = s.pc := rfl

@[simp] theorem setKeys_fault : (setKeys m s).fault = s.fault := rfl

/-- The mask that the host writes is the mask that the key instructions read (R223, R69). -/
@[simp] theorem setKeys_keys : (setKeys m s).keys = m := by
  rw [setKeys_eq, State.keys, State.byteAt_pokeWord_hi, State.byteAt_pokeWord_lo, wordOfBytes_hi_lo]

variable {s}

/-- The host's key write leaves the word to fetch, where neither of its bytes is one of KEYS (R223). -/
theorem fetchedWord_setKeys (h : s.pc.toNat + 1 < 0x1200 ∨ 0x1201 < s.pc.toNat) :
    (setKeys m s).fetchedWord = s.fetchedWord := by
  rw [State.fetchedWord, setKeys_pc, setKeys_eq, State.byteAt_pokeWord_ne _ _ (by omega) (by omega),
    State.byteAt_pokeWord_ne _ _ (by omega) (by omega), State.fetchedWord]

end

section
variable {s : State}

theorem isWaiting.keys_eq_zero (h : isWaiting s) : s.keys = 0 := by
  obtain ⟨-, -, -, hhi, hlo⟩ := h
  exact congrArg₂ wordOfBytes hhi hlo

/-- `stepRunsDecodedInstruction` with the state that the fetch leaves by its name (R80). -/
theorem step_of_decodeWord {i : Instr} (hf : s.fault = none) (hpc : s.pc.toNat + 1 < 0x1A20)
    (hd : decodeWord s.fetchedWord = .instr i) : step s = exec i s.advance :=
  stepRunsDecodedInstruction s _ hf hpc hd

/-- The retry's PC - 2 undoes the fetch's PC + 2, so a waiting machine steps to itself (R173). -/
theorem isWaiting.step_eq (h : isWaiting s) : step s = .next s := by
  have hkeys : s.advance.keys = 0 := h.keys_eq_zero
  obtain ⟨hf, hpc, ⟨x, hd⟩, -, -⟩ := h
  rw [step_of_decodeWord hf hpc hd, exec_ldVxK, if_pos hkeys, State.advance_pc, BitVec.add_sub_cancel]
  rfl

/-- A key write that leaves the instruction in place ends the wait (R173, R228). -/
theorem isWaiting.step_setKeys (h : isWaiting s) {m : Word} (hm : m ≠ 0)
    (hapart : s.pc.toNat + 1 < 0x1200 ∨ 0x1201 < s.pc.toNat) :
    ∃ t, step (setKeys m s) = .next t ∧ t.pc = s.pc + 2 := by
  obtain ⟨hf, hpc, ⟨x, hd⟩, -, -⟩ := h
  have hkeys : (setKeys m s).advance.keys ≠ 0 := by simpa using hm
  rw [← fetchedWord_setKeys m hapart] at hd
  rw [step_of_decodeWord (s := setKeys m s) hf hpc hd, exec_ldVxK, if_neg hkeys]
  exact ⟨_, rfl, rfl⟩

end

/-- Settles O58: the wait's two ends, the step that repeats and the step after a key write. -/
theorem keyWaitLastsUntilHostSetsAKey : Obligations.KeyWaitLastsUntilHostSetsAKey :=
  fun _ h => ⟨h.step_eq, fun _ => h.step_setKeys⟩

end Sys2Proof.Machine

/-! PROOFS. The undefined words (45_undefined.md R190-R196): each is a no-op of the step. -/

namespace Sys2Proof.Machine

/-- Settles O15: an undefined word decodes to the no-op, which leaves the state that the fetch left (R80, R190). -/
theorem undefinedWordsOnlyAdvance : Obligations.UndefinedWordsOnlyAdvance := by
  intro s hf hpc hu
  have hd : decodeWord s.fetchedWord = .nop s.fetchedWord := decodeWord_of_undefinedWord hu
  rw [step_of_fetch hf hpc, hd]
  rfl

end Sys2Proof.Machine

/-! PROOFS. The faults (60_exceptions.md): where in its work an instruction stops and with which fault (R200, R208), the host's
actions between two steps (R215, R220, R223), and the invariant of every run (R216, R248). -/

namespace Sys2Proof.Machine

/-! ## The host's ticks and key writes -/

/-- Settles O5. -/
theorem tickCountsBothTimersDown : Obligations.TickCountsBothTimersDown := by
  intro s
  refine ⟨?_, ?_, fun a hdt hst => ?_, tick_eq s⟩
  · simp [tick_byteAt, countDown_toNat]
  · simp [tick_byteAt, countDown_toNat]
  · simp [tick_byteAt, hdt, hst]

/-- Settles O6: the key write places the mask as a big-endian word at 0x1200. -/
theorem setKeysWritesMaskBigEndian : Obligations.SetKeysWritesMaskBigEndian := by
  intro s m
  rw [setKeys_eq]
  exact ⟨s.byteAt_pokeWord_hi 0x1200 m, s.byteAt_pokeWord_lo 0x1200 m, fun _ => s.byteAt_pokeWord_ne m, rfl⟩

/-! ## Where an instruction stops -/

/-- The fault that `raise` answers, by its kind and the state it leaves (R200). -/
theorem raise_fault {code : FaultCode} {info : Nat} {pc0 : Word} {u : State} {f : Fault}
    (h : raise code info pc0 u = .fault f) : f.code = some code ∧ f.left = u.recordFault code info pc0 := by
  obtain ⟨g, hg, hcode, hleft⟩ := raise_eq_fault code info pc0 u
  cases hg.symm.trans h
  exact ⟨hcode, hleft⟩

/-- Between two accesses instruction `i`, started in `s`, can have come to `u`: within its frame, and PC where the fetch left it. -/
structure Reached (i : Instr) (s u : State) : Prop extends Frame i s u where
  pc : u.pc = s.pc

/-- Instruction `i`, started in `s`, stops with `f`: raised at its own address in a state it had come to, and of a kind that R208
lists for it where SP is one that a run reaches. -/
def StopsWith (i : Instr) (s : State) (f : Fault) : Prop :=
  ∃ code info u, raise code info s.instrAddr u = .fault f ∧ Reached i s u ∧ (SpInRange s.sp → code ∈ mayRaise i)

section
variable {i : Instr} {s u : State} {f : Fault}

theorem Reached.refl (i : Instr) (s : State) : Reached i s s := ⟨.refl i s, rfl⟩

theorem Reached.setByte (hu : Reached i s u) {a : Nat} (ha : writeFault a = none) (b : Byte) : Reached i s (u.setByte a b) :=
  ⟨hu.toFrame.setByte ha b, hu.pc⟩

theorem Reached.setPixel (hu : Reached i s u) {j : Nat} (hj : j < 2048) (b : Byte) : Reached i s (u.setPixel j b) :=
  ⟨hu.toFrame.setPixel hj b, hu.pc⟩

theorem Reached.loadRegs (hu : Reached i s u) {base : Nat} {js : List Reg} (hjs : ∀ j ∈ js, writesV i j) :
    Reached i s (State.loadRegs base js u) := by
  refine ⟨hu.toFrame.loadRegs hjs, ?_⟩
  rw [State.loadRegs_eq]
  exact hu.pc

/-- The kinds of fault of a program's byte write are the three of R57 and R59. -/
theorem writeFault_mem {a : Nat} {code : FaultCode} (h : writeFault a = some code) :
    code ∈ [.outOfBounds, .readOnlyViolation, .geometryWrite] := by
  rcases writeFault_code h with ⟨rfl, -⟩ | ⟨rfl, -⟩ | ⟨rfl, -⟩ <;> decide

/-- A byte write that faults stops the instruction, or stores its byte and the fault comes from what follows. -/
theorem Reached.writeByte_fault (hu : Reached i s u) {a : Nat} {v : Byte} {k : State → Result}
    (hlisted : ∀ code, writeFault a = some code → SpInRange s.sp → code ∈ mayRaise i)
    (h : writeByte s.instrAddr a v u k = .fault f) : StopsWith i s f ∨ ∃ u', Reached i s u' ∧ k u' = .fault f := by
  rcases Machine.writeByte_fault.mp h with ⟨code, hcode, hraise⟩ | ⟨hok, h⟩
  · exact .inl ⟨code, a, u, hraise, hu, hlisted code hcode⟩
  · exact .inr ⟨_, hu.setByte hok v, h⟩

/-- A block store that faults: as for one byte. -/
theorem Reached.storeBlock_fault (hu : Reached i s u) {base : Nat} {js : List Reg} {k : State → Result}
    (hlisted : ∀ a code, writeFault a = some code → SpInRange s.sp → code ∈ mayRaise i)
    (h : storeBlock s.instrAddr base js u k = .fault f) : StopsWith i s f ∨ ∃ u', Reached i s u' ∧ k u' = .fault f := by
  induction js generalizing u with
  | nil => exact .inr ⟨u, hu, h⟩
  | cons j js ih =>
    rcases hu.writeByte_fault (hlisted _) h with hstop | ⟨u', hu', h⟩
    · exact .inl hstop
    · exact ih hu' h

/-- A key test that faults has a key number of 16 or more, or the fault comes from what follows (R176). -/
theorem keyDown_fault {pc0 : Word} {key : Byte} {k : Bool → Result} (h : keyDown pc0 key s k = .fault f) :
    raise .keyIndexOutOfRange key.toNat pc0 s = .fault f ∨ ∃ down, k down = .fault f := by
  by_cases hkey : key.toNat < 16
  · rw [keyDown_of_lt hkey] at h
    exact .inr ⟨_, h⟩
  · rw [keyDown_of_ge (Nat.not_lt.mp hkey)] at h
    exact .inl h

theorem execRet_fault (h : execRet s = .fault f) : StopsWith .ret s f := by
  rcases readWord_fault.mp h with ⟨-, h⟩ | ⟨-, h⟩ | ⟨-, h⟩
  · exact ⟨_, _, s, h, .refl _ s, fun _ => .head _⟩
  · exact ⟨_, _, s, h, .refl _ s, fun _ => .head _⟩
  · cases h

/-- From an SP that a run reaches, both bytes of a push lie inside memory, so CALL raises no OutOfBounds (R112). -/
theorem mem_mayRaise_call {nnn : Addr12} {a : Nat} {code : FaultCode} (ha : a ≤ (s.sp - 2).toNat + 1)
    (hcode : writeFault a = some code) (hsp : SpInRange s.sp) : code ∈ mayRaise (.call nnn) := by
  obtain ⟨-, hlow, hhigh⟩ := hsp
  have hpush : (s.sp - 2).toNat = s.sp.toNat - 2 := by bv_omega
  rcases writeFault_code hcode with ⟨-, hout⟩ | ⟨rfl, -⟩ | ⟨rfl, -⟩
  · omega
  · simp [mayRaise]
  · simp [mayRaise]

theorem execCall_fault {nnn : Addr12} (h : execCall nnn s = .fault f) : StopsWith (.call nnn) s f := by
  rw [execCall, writeWord] at h
  have hsp : Reached (.call nnn) s { s with sp := s.sp - 2 } :=
    ⟨(Frame.refl (.call nnn) s).setSp (.inr ⟨nnn, rfl⟩) _, rfl⟩
  rcases hsp.writeByte_fault (fun _ => mem_mayRaise_call (Nat.le_succ _)) h with hstop | ⟨u, hu, h⟩
  · exact hstop
  rcases hu.writeByte_fault (fun _ => mem_mayRaise_call le_rfl) h with hstop | ⟨_, -, h⟩
  · exact hstop
  · cases h

theorem execDrw_fault {x y : Reg} {n : Count4} (h : execDrw x y n s = .fault f) : StopsWith (.drw x y n) s f := by
  rcases drawRows_fault (P := Reached (.drw x y n) s) (fun _ _ v hj hu => hu.setPixel hj v) h (.refl _ s) with
    ⟨u, a, hu, h⟩ | ⟨u, j, hu, h⟩ | ⟨_, _, -, h⟩
  · exact ⟨_, a, u, h, hu, fun _ => by simp [mayRaise]⟩
  · exact ⟨_, j, u, h, hu, fun _ => by simp [mayRaise]⟩
  · cases h

theorem execSkp_fault {x : Reg} (h : execSkp x s = .fault f) : StopsWith (.skp x) s f := by
  rcases keyDown_fault h with h | ⟨_, h⟩
  · exact ⟨_, _, s, h, .refl _ s, fun _ => .head _⟩
  · cases h

theorem execSknp_fault {x : Reg} (h : execSknp x s = .fault f) : StopsWith (.sknp x) s f := by
  rcases keyDown_fault h with h | ⟨_, h⟩
  · exact ⟨_, _, s, h, .refl _ s, fun _ => .head _⟩
  · cases h

theorem execLdBcd_fault {x : Reg} (h : execLdBcd x s = .fault f) : StopsWith (.ldBcd x) s f := by
  have hlisted (a : Nat) (code : FaultCode) (hcode : writeFault a = some code) (_ : SpInRange s.sp) :
      code ∈ mayRaise (.ldBcd x) := writeFault_mem hcode
  rcases (Reached.refl (.ldBcd x) s).writeByte_fault (hlisted _) h with hstop | ⟨u1, hu1, h⟩
  · exact hstop
  rcases hu1.writeByte_fault (hlisted _) h with hstop | ⟨u2, hu2, h⟩
  · exact hstop
  rcases hu2.writeByte_fault (hlisted _) h with hstop | ⟨_, -, h⟩
  · exact hstop
  · cases h

theorem execStoreRegs_fault {x : Reg} (h : execStoreRegs x s = .fault f) : StopsWith (.storeRegs x) s f := by
  rcases (Reached.refl (.storeRegs x) s).storeBlock_fault (fun _ _ hcode _ => writeFault_mem hcode) h with
    hstop | ⟨_, -, h⟩
  · exact hstop
  · cases h

theorem execLoadRegs_fault {x : Reg} (h : execLoadRegs x s = .fault f) : StopsWith (.loadRegs x) s f := by
  rcases loadBlockRegs_fault h with ⟨front, j, back, hsplit, -, h⟩ | h
  · have hfront : ∀ r ∈ front, writesV (.loadRegs x) r := fun r hr =>
      mem_regsUpTo.mp (hsplit ▸ List.mem_append_left _ hr)
    exact ⟨_, _, _, h, (Reached.refl _ s).loadRegs hfront, fun _ => .head _⟩
  · cases h

/-- Every instruction that faults stops in a state it had come to, with a fault that R208 lists for it. -/
theorem exec_fault (h : exec i s = .fault f) : StopsWith i s f := by
  cases i
  -- the instructions for which R208 lists a fault
  case ret => exact execRet_fault h
  case call => exact execCall_fault h
  case drw => exact execDrw_fault h
  case skp => exact execSkp_fault h
  case sknp => exact execSknp_fault h
  case ldBcd => exact execLdBcd_fault h
  case storeRegs => exact execStoreRegs_fault h
  case loadRegs => exact execLoadRegs_fault h
  -- the instructions that access a timer or KEYS, whose addresses are no program's choice
  case ldVxDt => rw [exec_ldVxDt] at h; cases h
  case ldDtVx => rw [exec_ldDtVx] at h; cases h
  case ldStVx => rw [exec_ldStVx] at h; cases h
  case ldVxK => rw [exec_ldVxK] at h; split at h <;> cases h
  -- the others complete from every state
  all_goals cases h

/-- Settles O54: the kind in `exec_fault`, SP being in range by the invariant. -/
theorem instructionsRaiseOnlyListedFaults : Obligations.InstructionsRaiseOnlyListedFaults := by
  intro i s f hs h
  obtain ⟨code, _, _, hraise, -, hlisted⟩ := exec_fault h
  exact ⟨code, hlisted ⟨hs.spEven, hs.spLow, hs.spHigh⟩, (raise_fault hraise).1⟩

/-! ## Where a step stops -/

/-- A faulting step raises its fault at the PC of the step, in a state whose PC is that address or 2 past it (decision D18), whose
memory stays canonical, and whose guarded bytes are as before (R57, R59). -/
theorem step_fault (hf : s.fault = none) (h : step s = .fault f) :
    ∃ code info u, raise code info s.pc u = .fault f ∧ (u.pc = s.pc ∨ u.pc = s.pc + 2) ∧
      (s.mem.wf → u.mem.wf) ∧ ∀ a, writeFault a ≠ none → u.byteAt a = s.byteAt a := by
  unfold step at h
  rw [hf] at h
  rcases fetchWord_fault.mp h with ⟨-, h⟩ | ⟨-, h⟩ | ⟨-, h⟩
  · exact ⟨_, _, s, h, .inl rfl, id, fun _ _ => rfl⟩
  · exact ⟨_, _, s, h, .inl rfl, id, fun _ _ => rfl⟩
  · cases hd : decodeWord s.fetchedWord with
    | nop op => rw [hd] at h; cases h
    | instr i =>
      rw [hd] at h
      obtain ⟨code, info, u, hraise, hu, -⟩ := exec_fault (s := s.advance) h
      rw [State.advance_instrAddr] at hraise
      exact ⟨code, info, u, hraise, .inr hu.pc, hu.memWf, hu.guarded⟩

end

/-- Settles O56. -/
theorem faultRecordNamesTheInstruction : Obligations.FaultRecordNamesTheInstruction := by
  intro s f hf h
  obtain ⟨code, info, u, hraise, hpc, -, -⟩ := step_fault hf h
  obtain ⟨hcode, hleft⟩ := raise_fault hraise
  rw [hleft]
  exact ⟨code, info, hcode, rfl, hpc⟩

/-! ## The invariant of a run -/

section
variable {s u : State}

/-- The invariant goes over to a running state with SP in range and canonical memory, where the bytes that no program may write
are alike (R57, R59). -/
theorem Inv.of_guarded (hs : Inv s) (hrun : u.fault = none) (hsp : SpInRange u.sp) (hwf : u.mem.wf)
    (hguarded : ∀ a, writeFault a ≠ none → u.byteAt a = s.byteAt a) : Inv u := by
  obtain ⟨heven, hlow, hhigh⟩ := hsp
  exact {
    memWf := hwf
    spEven := heven
    spLow := hlow
    spHigh := hhigh
    rom := fun a ha => (hguarded a (writeFault_rom ha)).trans (hs.rom a ha)
    geometry := (readGeometry_of_guarded hguarded).trans hs.geometry
    running := hrun }

/-- A byte stored where a program may write keeps the invariant. -/
theorem Inv.setByte (hs : Inv s) {a : Nat} (ha : writeFault a = none) (b : Byte) : Inv (s.setByte a b) :=
  hs.of_guarded hs.running ⟨hs.spEven, hs.spLow, hs.spHigh⟩ (Memory.wf_put a b hs.memWf (writeFault_eq_none.mp ha).2.1)
    fun _ hc => s.byteAt_setByte_ne b fun e => hc (e ▸ ha)

/-- The host's reset makes the invariant hold, whatever SP and the fault record were, where memory is canonical and its guarded
bytes are those of a state that meets it (R241, R248). -/
theorem Inv.resetAction_of_guarded (hs : Inv s) (hwf : u.mem.wf)
    (hguarded : ∀ a, writeFault a ≠ none → u.byteAt a = s.byteAt a) : Inv (resetAction u) := by
  have hsp : SpInRange 0x1200 := ⟨by decide, by decide, by decide⟩
  refine hs.of_guarded rfl hsp (Memory.wf_clearScreen hwf) fun a ha => ?_
  have hout : ¬ (0x1220 ≤ a ∧ a < 0x1A20) := fun h => ha (writeFault_eq_none.mpr (by omega))
  rw [resetAction_byteAt, if_neg hout, hguarded a ha]

theorem Inv.apply (hs : Inv s) (act : HostAction) : Inv (act.apply s) := by
  cases act with
  | tick => exact (hs.setByte (by decide) _).setByte (by decide) _
  | setKeys m => exact (hs.setByte (by decide) _).setByte (by decide) _
  | reset => exact hs.resetAction_of_guarded hs.memWf fun _ _ => rfl

/-- The machine with nothing loaded meets the invariant: an unlisted address reads as construction leaves it (R243, R244). -/
theorem State.reset_inv : Inv State.reset where
  memWf := Memory.wf_nil
  spEven := by decide
  spLow := by decide
  spHigh := by decide
  rom := fun _ => Memory.initByte_rom
  geometry := rfl
  running := rfl

/-- Where a boot answers a state, the image fits in CODE (R246). -/
theorem boot_next {image : List Byte} (h : boot (some image) = .next s) :
    image.length ≤ 3584 ∧ s = resetAction { State.reset with mem := Memory.putBytes [] 0x0200 image } := by
  by_cases hfits : image.length ≤ Config.codeSize
  · rw [boot, if_pos hfits] at h
    cases h
    exact ⟨hfits, rfl⟩
  · rw [boot, if_neg hfits] at h
    cases h

/-- A boot writes CODE only, where a program may write too, and ends in a reset (R245). -/
theorem boot_inv {image : List Byte} (h : boot (some image) = .next s) : Inv s := by
  obtain ⟨hfits, rfl⟩ := boot_next h
  refine State.reset_inv.resetAction_of_guarded (Memory.wf_putBytes image 0x0200 Memory.wf_nil ?_) fun a ha => ?_
  · rw [Config.totalSize_eq]
    omega
  · refine (Memory.lookup_putBytes image [] 0x0200 a).trans (dif_neg fun h => ha (writeFault_eq_none.mpr ?_))
    omega

theorem Move.keeps_inv (hs : Inv s) (h : Move s u) : Inv u := by
  cases h with
  | step h => exact everyStepKeepsInvariant s u hs h
  | host act => exact hs.apply act
  | resetAfterFault h =>
    obtain ⟨code, info, t, hraise, -, hwf, hguarded⟩ := step_fault hs.running h
    rw [(raise_fault hraise).2]
    exact hs.resetAction_of_guarded (hwf hs.memWf) hguarded

end

/-- Settles O49: the boot makes the invariant hold and every move of a run keeps it. -/
theorem reachableStatesMeetInvariant : Obligations.ReachableStatesMeetInvariant := by
  intro s hs
  induction hs with
  | boot h => exact boot_inv h
  | move _ h ih => exact h.keeps_inv ih

end Sys2Proof.Machine

/-! PROOFS. Reset, boot and what an environment may count on (70_reset_and_hazards.md): the values that reset and boot leave
(R240-R246), the countdown of DT under ticks (R254), and the halt by a jump to itself (R256). -/

namespace Sys2Proof.Machine

/-! ## Reset -/

@[simp] theorem resetAction_getV (s : State) (r : Reg) : (resetAction s).getV r = 0 := Vector.getElem_replicate r.isLt

/-- Settles O1: memory by `resetAction_byteAt`, whose two cases are the two ranges. -/
theorem resetActionSetsRegistersAndClearsScreen : Obligations.ResetActionSetsRegistersAndClearsScreen := by
  intro s
  refine ⟨resetAction_getV s, resetAction_i s, resetAction_pc s, resetAction_sp s, resetAction_fault s,
    fun a hlow hhigh => ?_, fun a hout => ?_⟩
  · rw [resetAction_byteAt, if_pos (by omega)]
  · rw [resetAction_byteAt, if_neg (by omega)]

/-- Settles O47. -/
theorem resetStateMeetsInvariant : Obligations.ResetStateMeetsInvariant := State.reset_inv

/-! ## Boot -/

/-- After construction SCREEN already reads as a reset leaves it (R240, R243). -/
theorem State.reset_byteAt_screen {a : Nat} (h : 0x1220 ≤ a ∧ a < 0x1A20) : State.reset.byteAt a = 0 :=
  Memory.initByte_zero (by omega) (by omega)

/-- The state after construction, font load and the program's load, on which the boot's reset acts (R245). -/
def State.loaded (image : List Byte) : State := { State.reset with mem := State.reset.mem.putBytes 0x0200 image }

section
variable {image : List Byte}

theorem boot_of_le (h : image.length ≤ 3584) : boot (some image) = .next (resetAction (State.loaded image)) := if_pos h

theorem boot_of_gt (h : 3584 < image.length) : boot (some image) = .refused (.imageTooLong image.length) :=
  if_neg (Nat.not_le.mpr h)

theorem State.loaded_byteAt_image {k : Nat} (h : k < image.length) : (State.loaded image).byteAt (0x0200 + k) = image[k] := by
  refine (Memory.lookup_putBytes image State.reset.mem 0x0200 (0x0200 + k)).trans ?_
  rw [dif_pos (by omega)]
  simp only [Nat.add_sub_cancel_left]

theorem State.loaded_byteAt_outside {a : Nat} (h : a < 0x0200 ∨ 0x0200 + image.length ≤ a) :
    (State.loaded image).byteAt a = State.reset.byteAt a :=
  (Memory.lookup_putBytes image State.reset.mem 0x0200 a).trans (dif_neg (by omega))

end

/-- Settles O3: an image that fits lies below SCREEN, so the boot's reset keeps its bytes, and SCREEN was zero before it. -/
theorem bootLoadsImageAtCodeStart : Obligations.BootLoadsImageAtCodeStart := by
  intro image
  refine ⟨fun hfits => ⟨_, boot_of_le hfits, rfl, fun k hk => ?_, fun a ha => ?_⟩, boot_of_gt⟩
  · rw [resetAction_byteAt, if_neg (by omega), State.loaded_byteAt_image hk]
  · rw [resetAction_byteAt, State.loaded_byteAt_outside ha]
    split
    next hscreen => exact (State.reset_byteAt_screen hscreen).symm
    next => rfl

/-- Settles O2: with no image the reset meets the state it would leave, and every byte is unlisted. -/
theorem resetStateHoldsSpecValues : Obligations.ResetStateHoldsSpecValues :=
  ⟨boot_of_le (image := []) (Nat.zero_le _), resetAction_getV State.reset, rfl, rfl, rfl, rfl,
    fun _ => State.reset_inv.rom_byte, State.reset_inv.geometry_eq, fun _ => Memory.initByte_zero⟩

/-! ## The delay timer under ticks -/

/-- Each tick takes one from DT until it is zero (R220). -/
theorem iterate_tick_dt (s : State) (n : Nat) :
    ((tick^[n] s).byteAt 0x1202).toNat = (s.byteAt 0x1202).toNat - n := by
  induction n with
  | zero => rfl
  | succ n ih =>
    obtain ⟨hdt, -⟩ := tickCountsBothTimersDown (tick^[n] s)
    rw [Function.iterate_succ_apply', hdt, ih, Nat.sub_sub]

/-- Settles O7: Fx15 stores the value in DT, the ticks count it down, and Fx07 reads it. -/
theorem delayTimerReadsSetValueLessTicks : Obligations.DelayTimerReadsSetValueLessTicks := by
  intro s x y
  refine ⟨_, exec_ldDtVx s x, fun n => ⟨_, exec_ldVxDt _ y, ?_⟩⟩
  rw [State.getV_setV_self, iterate_tick_dt, State.byteAt_setByte_self]
  exact ⟨rfl, Nat.sub_le _ _⟩

/-! ## The halt by a jump to itself -/

section
variable {s t : State}

/-- The ticks leave the word to fetch, where neither of its bytes is a timer (R220). -/
theorem fetchedWord_tick (h : s.pc.toNat + 1 < 0x1202 ∨ 0x1203 < s.pc.toNat) : (tick s).fetchedWord = s.fetchedWord := by
  obtain ⟨-, -, hframe, -⟩ := tickCountsBothTimersDown s
  show wordOfBytes ((tick s).byteAt s.pc.toNat) ((tick s).byteAt (s.pc.toNat + 1)) = _
  rw [hframe _ (by omega) (by omega), hframe _ (by omega) (by omega)]
  rfl

/-- The target of the jump is a 12-bit address, so the word a halted machine fetches is clear of PERIPH. -/
theorem isHalted.pc_lt (h : isHalted s) : s.pc.toNat < 0x1000 := by
  obtain ⟨-, -, nnn, -, hself⟩ := h
  exact hself ▸ nnn.isLt

/-- The halt depends on the fault record, PC and the word to fetch only. -/
theorem isHalted.of_fetch (h : isHalted s) (hf : t.fault = s.fault) (hpc : t.pc = s.pc)
    (hword : t.fetchedWord = s.fetchedWord) : isHalted t := by
  unfold isHalted
  rw [hf, hpc, hword]
  exact h

/-- The jump sets PC back to the address that the fetch advanced it from (R110). -/
theorem isHalted.step_eq (h : isHalted s) : step s = .next s := by
  obtain ⟨hf, hpc, nnn, hd, hself⟩ := h
  have htarget : zextAddr nnn = s.pc := BitVec.eq_of_toNat_eq ((zextAddr_toNat nnn).trans hself)
  calc step s = exec (.jp nnn) s.advance := step_of_decodeWord hf hpc hd
    _ = .next { s with pc := zextAddr nnn } := rfl
    _ = .next s := by rw [htarget]

theorem isHalted.tick (h : isHalted s) : isHalted (tick s) :=
  h.of_fetch rfl rfl (fetchedWord_tick (.inl (by have := h.pc_lt; omega)))

theorem isHalted.setKeys (h : isHalted s) (m : Word) : isHalted (setKeys m s) :=
  h.of_fetch rfl rfl (fetchedWord_setKeys m (.inl (by have := h.pc_lt; omega)))

end

/-- Settles O57. -/
theorem selfJumpHaltsTheRun : Obligations.SelfJumpHaltsTheRun := fun _ h => ⟨h.step_eq, h.tick, h.setKeys⟩

end Sys2Proof.Machine
